-- ==== Sys2Proof/Word.lean ====
section
/-! DEFINITION. The two word types of the machine: a 64-bit program word, register and pointer value (R4, R10, R30),
and a 3-bit element of the Output Stream (R14). Everything is unsigned. -/

namespace Sys2Proof

/-- A register value, a program word or a pointer value: unsigned, XLEN = WORDW = IPW = 64 bits (R10, R12, R30). -/
abbrev Word := BitVec 64

/-- One element of the Output Stream: OUTW = 3 bits, an integer in [0,7] (R14). -/
abbrev Elem := BitVec 3

end Sys2Proof
end

