-- ==== Sys2Proof/Syntax.lean ====
section
/-! DEFINITION. The instructions: one constructor per row of `opcode_table.json`, each with its operand word read by the
opcode's operand class (R47, R50). -/

namespace Sys2Proof

/-- The three registers (R10): register numbers 0, 1, 2, selected by combo operands 4, 5, 6. -/
inductive Reg where
  | a
  | b
  | c
deriving DecidableEq, Repr

/-- A combo operand (R49, R63): a constant 0 to 3, the value of a register, or an operand word that selects nothing
(7 in the source, 8 and above by D10), which the instruction turns into INVALID_COMBO. -/
inductive Combo where
  | const (n : BitVec 2)
  | reg (r : Reg)
  | reserved (p : Word)
deriving DecidableEq, Repr

/-- The closed set of eight instructions (R2, R50), in opcode order. -/
inductive Instr where
  /-- Opcode 0, divide-A (R71). -/
  | diva (x : Combo)
  /-- Opcode 1, xor-immediate-B; the literal is the whole operand word (R75). -/
  | xori (p : Word)
  /-- Opcode 2, mod-8-into-B (R76). -/
  | mod8 (x : Combo)
  /-- Opcode 3, jump-if-A-nonzero; the literal is the absolute target (R80). -/
  | jnz (p : Word)
  /-- Opcode 4, xor-B-C; the operand word is kept, and ignored (R53, R77). -/
  | xorc (p : Word)
  /-- Opcode 5, emit (R83). -/
  | emit (x : Combo)
  /-- Opcode 6, divide-A-into-B (R72). -/
  | divb (x : Combo)
  /-- Opcode 7, divide-A-into-C (R73). -/
  | divc (x : Combo)
deriving DecidableEq, Repr

end Sys2Proof
end

