-- ==== Sys2Proof/WellFormed.lean ====
section
/-! DEFINITION. Which terms of `Instr` stand for a pair of words. The one check: an operand is `reserved` only for the
operand words 7 and above, since 0 to 6 select a constant or a register (R49, R63). -/

namespace Sys2Proof

/-- A combo operand that some operand word reads as. -/
def Combo.wf : Combo → Bool
  | .const _ => true
  | .reg _ => true
  | .reserved p => decide (7 ≤ p.toNat)

/-- An instruction that some pair of words decodes to. -/
def Instr.wf : Instr → Bool
  | .diva x => x.wf
  | .xori _ => true
  | .mod8 x => x.wf
  | .jnz _ => true
  | .xorc _ => true
  | .emit x => x.wf
  | .divb x => x.wf
  | .divc x => x.wf

end Sys2Proof
end

