-- ==== Sys2Proof/Decode.lean ====
section
/-! DEFINITION. The decoder, the encoder and the opcode table. An instruction is a pair of whole words, the opcode word
first (R45, R46); the opcode word alone selects the instruction, compared at its full 64 bits (R50, R65). -/

namespace Sys2Proof

/-- What a fetched pair of words is: an instruction, or an illegal opcode word, rejected with the word (R51, R65). -/
inductive Decoded where
  | instr (i : Instr)
  | illegalOpcode (op : Word)
deriving DecidableEq, Repr

/-- The combo operand an operand word stands for (R49, R63). -/
def decodeCombo (p : Word) : Combo :=
  if p.toNat ≤ 3 then .const (p.setWidth 2)
  else if p = 4 then .reg .a
  else if p = 5 then .reg .b
  else if p = 6 then .reg .c
  else .reserved p

/-- Decode a pair (R60's `case opcode of`, R65): total, one case per opcode 0 to 7, every other word illegal. -/
def decode (op p : Word) : Decoded :=
  if op = 0 then .instr (.diva (decodeCombo p))
  else if op = 1 then .instr (.xori p)
  else if op = 2 then .instr (.mod8 (decodeCombo p))
  else if op = 3 then .instr (.jnz p)
  else if op = 4 then .instr (.xorc p)
  else if op = 5 then .instr (.emit (decodeCombo p))
  else if op = 6 then .instr (.divb (decodeCombo p))
  else if op = 7 then .instr (.divc (decodeCombo p))
  else .illegalOpcode op

/-- The operand word of a combo operand: register i is selected by 4 + i (R10, R63). -/
def encodeCombo : Combo → Word
  | .const n => n.setWidth 64
  | .reg .a => 4
  | .reg .b => 5
  | .reg .c => 6
  | .reserved p => p

/-- The pair of words of an instruction, opcode word first (R45, R50). -/
def encode : Instr → Word × Word
  | .diva x => (0, encodeCombo x)
  | .xori p => (1, p)
  | .mod8 x => (2, encodeCombo x)
  | .jnz p => (3, p)
  | .xorc p => (4, p)
  | .emit x => (5, encodeCombo x)
  | .divb x => (6, encodeCombo x)
  | .divc x => (7, encodeCombo x)

/-- The 3-bit view of an instruction (R54's "encoding3"): opcode bits then operand bits, defined only when both words
are in [0,7]. -/
def encode3 (i : Instr) : Option (BitVec 6) :=
  if (encode i).1.toNat ≤ 7 ∧ (encode i).2.toNat ≤ 7 then
    some (((encode i).1.setWidth 3 : BitVec 3) ++ ((encode i).2.setWidth 3 : BitVec 3))
  else none

/-- The mnemonics of R50 (the spec's own, D14), as the opcode table spells them. -/
def Instr.mnemonic : Instr → String
  | .diva _ => "DIVA"
  | .xori _ => "XORI"
  | .mod8 _ => "MOD8"
  | .jnz _ => "JNZ"
  | .xorc _ => "XORC"
  | .emit _ => "EMIT"
  | .divb _ => "DIVB"
  | .divc _ => "DIVC"

/-- One row of the opcode table, read as R54 says: `mask` and `pattern` (the table's "match") apply to the opcode word. -/
structure OpcodeRow where
  mnemonic : String
  mask : Word
  pattern : Word
deriving DecidableEq, Repr

/-- A row matches an opcode word when `(MemRead(IP,1) and mask) = match` (R54). -/
def OpcodeRow.matches (r : OpcodeRow) (op : Word) : Bool := decide (op &&& r.mask = r.pattern)

/-- `opcode_table.json`: eight rows, every mask the whole word (R54). -/
def opcodeTable : List OpcodeRow :=
  [ { mnemonic := "DIVA", mask := 0xFFFFFFFFFFFFFFFF, pattern := 0x0000000000000000 },
    { mnemonic := "XORI", mask := 0xFFFFFFFFFFFFFFFF, pattern := 0x0000000000000001 },
    { mnemonic := "MOD8", mask := 0xFFFFFFFFFFFFFFFF, pattern := 0x0000000000000002 },
    { mnemonic := "JNZ", mask := 0xFFFFFFFFFFFFFFFF, pattern := 0x0000000000000003 },
    { mnemonic := "XORC", mask := 0xFFFFFFFFFFFFFFFF, pattern := 0x0000000000000004 },
    { mnemonic := "EMIT", mask := 0xFFFFFFFFFFFFFFFF, pattern := 0x0000000000000005 },
    { mnemonic := "DIVB", mask := 0xFFFFFFFFFFFFFFFF, pattern := 0x0000000000000006 },
    { mnemonic := "DIVC", mask := 0xFFFFFFFFFFFFFFFF, pattern := 0x0000000000000007 } ]

/-- The two words of an instruction whose `nbits` bits are `w`: the opcode word is bits 63..0, the operand word bits
127..64, and every bit at `nbits` and above is 0. -/
def tableWords (nbits w : Nat) : Word × Word :=
  let v := w % 2 ^ nbits
  (BitVec.ofNat 64 v, BitVec.ofNat 64 (v / 2 ^ 64))

/-- What the decoder reads from an instruction whose bits are `w`. -/
def decodeTableWord (nbits w : Nat) : Option Instr :=
  match decode (tableWords nbits w).1 (tableWords nbits w).2 with
  | .instr i => some i
  | .illegalOpcode _ => none

end Sys2Proof
end

