-- ==== Sys2Proof/Config.lean ====
section
/-! DEFINITION. What an implementation fixes: the two open parameters of `00_scope.md` section 4 that the machine itself
takes. They are plain data, so that a state can carry them (log 7). The spec leaves no value free: `93_implementation_defined.md`
Part 1 ends by saying that every readable result is a defined value or a defined fault. -/

namespace Sys2Proof

/-- The implementation's capacities. `none` is "unbounded", the default of `92_eei_decisions.md`'s table of parameters. -/
structure Config where
  /-- OUT_CAP: capacity of the output buffer in elements (R15, R95, D3). -/
  outCap : Option Nat
  /-- PMEM_WORDS: capacity of the program memory in words (R31); it bounds what the host can load, nothing else. -/
  pmemWords : Option Nat
deriving DecidableEq, Repr

/-- The spec's defaults: both capacities unbounded. -/
def Config.default : Config := { outCap := none, pmemWords := none }

end Sys2Proof
end

