-- ==== Sys2Proof/Machine/State.lean ====
section
/-! DEFINITION. The machine's state as plain data (`10_state.md`), the reasons a step or a host move stops, and the
machine at power-on (R24). -/

namespace Sys2Proof.Machine

/-- MODE (R16): chosen by the host at `Init`, constant for a run. -/
inductive Mode where
  | direct
  | search
deriving DecidableEq, Repr

/-- STATUS (R17). `halted`, `aborted` and `faulted` are terminal. -/
inductive Status where
  | idle
  | running
  | halted
  | aborted
  | faulted
deriving DecidableEq, Repr

/-- CAUSE (R18, R90). `none` is "no fault". -/
inductive Cause where
  | none
  | oddLength
  | incompletePair
  | illegalOpcode
  | invalidCombo
  | shiftOverflow
  | outputOverflow
deriving DecidableEq, Repr

/-- The program memory (R30, R31): the words 0 to PLEN - 1 in index order, so that PLEN is the length and an address is
an index. DEDUCED from R30, R36 and R39 (log 1): the memory is word-addressed, has no bytes, and nothing exists at PLEN
or above, so that the list of its words is its one canonical form. -/
abbrev Memory := List Word

/-- Everything the spec gives the machine (R10 to R19), the Program it runs (R21, R30), and its two open parameters. -/
structure State where
  /-- Register A, x[0] (R10). -/
  a : Word
  /-- Register B, x[1] (R10). -/
  b : Word
  /-- Register C, x[2] (R10). -/
  c : Word
  /-- The Instruction Pointer: a count of words (R12). -/
  pc : Word
  /-- The Output Stream, element 0 first (R14). -/
  out : List Elem
  /-- MODE (R16). -/
  mode : Mode
  /-- STATUS (R17). -/
  status : Status
  /-- CAUSE of the fault record (R18). -/
  cause : Cause
  /-- INFO of the fault record (R18). -/
  info : Word
  /-- MATCH, the search result (R19). -/
  matched : Bool
  /-- The Program; its length is PLEN (R30, R31). -/
  program : Memory
  /-- OUT_CAP and PMEM_WORDS, which no step and no host move changes (log 7). -/
  config : Config
deriving DecidableEq, Repr

/-- The one way a step stops without a successor. -/
inductive Fault where
  /-- Raised by `step` in a STATUS other than RUNNING, where no step is defined (R60, R98, U16): a stuck state. Safe:
  the machine does nothing there (log 5). -/
  | notRunning (status : Status)
deriving DecidableEq, Repr

/-- The ways an instruction or a host move is turned away. -/
inductive Refusal where
  /-- An instruction without a meaning: raised by an arm of `exec`; no arm does. Safe. -/
  | notModelled (mnemonic : String)
  /-- Raised by `hostLoad` and `hostInit` while STATUS = RUNNING: the host has no such move (R33, R113, U15). Unsafe
  only against a host that breaks its contract (log 6). -/
  | hostMoveWhileRunning
  /-- Raised by `hostLoad` for a Program longer than 2^64 - 2 words or than PMEM_WORDS (R31): no such Program can be
  loaded. Safe (log 10). -/
  | programTooLong
deriving DecidableEq, Repr

/-- The machine at power-on (R24): STATUS = IDLE, CAUSE = INFO = MATCH = 0. DESIGN CHOICE (log 2, log 3): the spec
leaves A, B, C, IP, Out, MODE and the program memory unspecified; here they are 0, empty, DIRECT and no word. No step
is defined in IDLE and `hostInit` overwrites all of them but the Program, so that no run reads these values. -/
def State.reset : State :=
  { a := 0, b := 0, c := 0, pc := 0, out := [], mode := .direct, status := .idle, cause := .none, info := 0,
    matched := false, program := [], config := Config.default }

end Sys2Proof.Machine
end

