-- ==== Sys2Proof/Machine/Ops.lean ====
section
/-! DEFINITION. The named operations over the program memory and the state: reading and placing words, registers, the
pointer, the Output Stream, the halt, the abort, and taking a fault as one shared operation. -/

namespace Sys2Proof.Machine

/-! ### Program memory -/

/-- The largest PLEN (R31, D2). -/
def maxPlen : Nat := 2 ^ 64 - 2

/-- The form of a program memory: PLEN <= 2^64 - 2, so that PLEN and every index fit the pointer (R31). -/
def Memory.wf (m : Memory) : Bool := decide (m.length ≤ maxPlen)

/-- `MemRead(i, 1)` (R5): the word at index i, which exists only below PLEN. No side effect (R38). -/
def Memory.read (m : Memory) (i : Nat) : Option Word := m[i]?

/-- `MemWrite(i, n, v)` (R5) for n words that lie below PLEN: only the host's loader performs it (R33). -/
def Memory.write (m : Memory) (i : Nat) (ws : List Word) : Memory := m.take i ++ ws ++ m.drop (i + ws.length)

/-- The memory with PLEN raised to at least n, the new words 0. -/
def Memory.extend (m : Memory) (n : Nat) : Memory := m ++ List.replicate (n - m.length) 0

/-- Loading a Program sets PLEN and writes the words 0 to PLEN - 1 (R33, R112): nothing of the old Program is left. -/
def Memory.load (ws : List Word) : Memory := (Memory.extend [] ws.length).write 0 ws

/-- PLEN, the length of the loaded Program (R31). -/
def State.plen (s : State) : Nat := s.program.length

/-! ### The codes the host reads -/

/-- MODE's bit (R16). -/
def Mode.code : Mode → BitVec 1
  | .direct => 0
  | .search => 1

/-- STATUS's number (R17). -/
def Status.code : Status → Nat
  | .idle => 0
  | .running => 1
  | .halted => 2
  | .aborted => 3
  | .faulted => 4

/-- HALTED, ABORTED and FAULTED are terminal (R17). -/
def Status.terminal : Status → Bool
  | .idle => false
  | .running => false
  | .halted => true
  | .aborted => true
  | .faulted => true

/-- CAUSE's number (R90). -/
def Cause.code : Cause → Nat
  | .none => 0
  | .oddLength => 1
  | .incompletePair => 2
  | .illegalOpcode => 3
  | .invalidCombo => 4
  | .shiftOverflow => 5
  | .outputOverflow => 6

/-! ### Registers and pointer -/

/-- `x[i]` (R5, R10). -/
def State.readReg (s : State) : Reg → Word
  | .a => s.a
  | .b => s.b
  | .c => s.c

/-- `x[i] <- v` (R5): three distinct cells, so that a write to one changes no other (R10). -/
def State.writeReg (s : State) (r : Reg) (v : Word) : State :=
  { s with
    a := if r = .a then v else s.a
    b := if r = .b then v else s.b
    c := if r = .c then v else s.c }

/-- `pc <- t` (R80): no check, no scaling, no addition. -/
def State.jump (s : State) (t : Word) : State := { s with pc := t }

/-- `pc <- pc + 2` (R66). The sum does not wrap in a step that fetched a pair (R67). -/
def State.advance (s : State) : State := { s with pc := s.pc + 2 }

/-! ### The Output Stream -/

/-- `append(Out, e)` (R5, R14): the one operation on Out during a run. -/
def State.appendOut (s : State) (e : Elem) : State := { s with out := s.out ++ [e] }

/-- An element as a program word: `zext_64(e)` (R5). -/
def zext64 (e : Elem) : Word := e.setWidth 64

/-- Out read as program words, element by element (R19). -/
def State.outWords (s : State) : List Word := s.out.map zext64

/-- `Out = Program`: equal length and `zext_64(Out[i]) = MemRead(i, 1)` at every index (R19). -/
def State.outIsProgram (s : State) : Bool := decide (s.outWords = s.program)

/-! ### How a run ends -/

/-- Taking a fault, `raise F(info)` (R96): STATUS, CAUSE and INFO are written and nothing else, IP staying at the
faulting pair. The spec has no return from a fault (R98): only a new `Init` leaves FAULTED, so that no operation
stands beside this one. -/
def State.raise (s : State) (cause : Cause) (info : Word) : State :=
  { s with status := .faulted, cause := cause, info := info }

/-- The natural halt (R61): STATUS <- HALTED and MATCH <- (MODE = SEARCH) and (Out = Program); nothing else changes. -/
def State.halt (s : State) : State :=
  { s with status := .halted, matched := decide (s.mode = .search) && s.outIsProgram }

/-- The search-mode abort (R84): STATUS <- ABORTED; MATCH, CAUSE and INFO stay. -/
def State.abort (s : State) : State := { s with status := .aborted }

/-! ### Effects that may raise a fault before they write -/

/-- What `raise F(info)` is given (R5, R90). -/
structure FaultRecord where
  cause : Cause
  info : Word
deriving DecidableEq, Repr

/-- Go on with a value, or take the fault that computing it raised: an instruction that faults writes nothing else
(R11, R96). -/
def State.withValue (s : State) (r : Except FaultRecord Word)
    (k : Word → Host.Outcome State Fault Refusal) : Host.Outcome State Fault Refusal :=
  match r with
  | .error f => .next (s.raise f.cause f.info)
  | .ok v => k v

end Sys2Proof.Machine
end

