-- ==== Sys2Proof/Machine/Operands.lean ====
section
/-! DEFINITION. The operand forms (R47: literal, combo, ignored; a literal is the operand word itself, R64) and the
datapath's value functions: division by a power of two and the low three bits (R70, R74). -/

namespace Sys2Proof.Machine

/-- Combo resolution (R63), on the state before the instruction: a constant zero-extended to 64 bits, a register's value
at full width, or the fault INVALID_COMBO recording the operand word. -/
def State.combo (s : State) : Combo → Except FaultRecord Word
  | .const n => .ok (n.setWidth 64)
  | .reg r => .ok (s.readReg r)
  | .reserved p => .error { cause := .invalidCombo, info := p }

/-- SHIFT_LIMIT = XLEN (`00_scope.md` section 4): a shift amount from here on is fatal. -/
def shiftLimit : Nat := 64

/-- `div2(a, k)` (R70): SHIFT_OVERFLOW(k) when the full 64-bit k is 64 or more, else the logical right shift. -/
def div2 (a k : Word) : Except FaultRecord Word :=
  if shiftLimit ≤ k.toNat then .error { cause := .shiftOverflow, info := k } else .ok (a >>> k.toNat)

/-- `v mod 8` as an element: `v[2:0]` (R5, R83). -/
def low3 (v : Word) : Elem := v.setWidth 3

end Sys2Proof.Machine
end

