-- ==== Sys2Proof/Machine/Bitwise.lean ====
section
/-! DEFINITION. The bitwise family, opcodes 1, 2 and 4 (`42_bitwise.md`): each writes B and nothing else. -/

namespace Sys2Proof.Machine

/-- XORI (R75): B xor the literal operand word, all 64 bits. -/
def execXori (p : Word) (s : State) : Host.Outcome State Fault Refusal :=
  .next (s.writeReg .b (s.b ^^^ p)).advance

/-- MOD8 (R76): the low three bits of the combo value, zero-extended, into B. -/
def execMod8 (x : Combo) (s : State) : Host.Outcome State Fault Refusal :=
  s.withValue (s.combo x) fun v => .next (s.writeReg .b (zext64 (low3 v))).advance

/-- XORC (R77): B xor C; the operand word is not looked at. -/
def execXorc (_p : Word) (s : State) : Host.Outcome State Fault Refusal :=
  .next (s.writeReg .b (s.b ^^^ s.c)).advance

end Sys2Proof.Machine
end

