-- ==== Sys2Proof/Machine/Divide.lean ====
section
/-! DEFINITION. The divide family, opcodes 0, 6 and 7 (`41_divide.md`): A divided by a power of two into A, B or C. -/

namespace Sys2Proof.Machine

/-- The shared effect (R70 to R73): resolve the combo operand, shift A by it, write the destination, advance. Both
reads take the registers from before the write (R11). -/
def State.divideInto (s : State) (rd : Reg) (x : Combo) : Host.Outcome State Fault Refusal :=
  s.withValue (s.combo x) fun k =>
    s.withValue (div2 s.a k) fun v => .next (s.writeReg rd v).advance

/-- DIVA (R71). -/
def execDiva (x : Combo) (s : State) : Host.Outcome State Fault Refusal := s.divideInto .a x

/-- DIVB (R72): the dividend is A, not B. -/
def execDivb (x : Combo) (s : State) : Host.Outcome State Fault Refusal := s.divideInto .b x

/-- DIVC (R73): the dividend is A, not C. -/
def execDivc (x : Combo) (s : State) : Host.Outcome State Fault Refusal := s.divideInto .c x

end Sys2Proof.Machine
end

