-- ==== Sys2Proof/Machine/Flags.lean ====
section
/-! DEFINITION. The machine has no flags, condition codes or predicates (R20). What stands here are the tests that steps
and instructions make on the state itself: JNZ's condition, the full output buffer, and the search-mode comparator. -/

namespace Sys2Proof.Machine

/-- JNZ's condition (R80): all 64 bits of A compared with zero. -/
def State.aIsNonzero (s : State) : Bool := decide (s.a ≠ 0)

/-- `len(Out) = OUT_CAP` for a finite OUT_CAP (R83, R95); an unbounded buffer is never full. -/
def State.outFull (s : State) : Bool := decide (s.config.outCap = some s.out.length)

/-- The comparator's test (R84), made after the append of e: Out is longer than Program (then nothing is read), or the
new element as a 64-bit value differs from `Program[len(Out) - 1]`. -/
def State.diverges (s : State) (e : Elem) : Bool :=
  if s.plen < s.out.length then true
  else decide (s.program.read (s.out.length - 1) ≠ some (zext64 e))

/-- `compare` (R84): in SEARCH the run aborts where Out diverges from Program; in DIRECT nothing is read (R86). -/
def State.compare (s : State) (e : Elem) : State :=
  if s.mode = .search then (if s.diverges e then s.abort else s) else s

end Sys2Proof.Machine
end

