-- ==== Sys2Proof/Machine/Emit.lean ====
section
/-! DEFINITION. The output instruction, opcode 5, and its search-mode comparator (`44_emit.md`). -/

namespace Sys2Proof.Machine

/-- Append, advance, compare, in that order (R83, R84): an abort leaves the element appended and IP advanced (D13). -/
def State.emitElem (s : State) (e : Elem) : State := ((s.appendOut e).advance).compare e

/-- EMIT (R83): INVALID_COMBO before OUTPUT_OVERFLOW (R97), which is raised before appending and records len(Out). -/
def execEmit (x : Combo) (s : State) : Host.Outcome State Fault Refusal :=
  s.withValue (s.combo x) fun v =>
    if s.outFull then .next (s.raise .outputOverflow (BitVec.ofNat 64 s.out.length))
    else .next (s.emitElem (low3 v))

end Sys2Proof.Machine
end

