-- ==== Sys2Proof/Machine/Jump.lean ====
section
/-! DEFINITION. Control transfer, opcode 3 (`43_jump.md`). -/

namespace Sys2Proof.Machine

/-- JNZ (R80): to the literal itself when A is not zero, else on to the next pair. The target is not checked here; the
next step's fetch decides what it leads to. -/
def execJnz (p : Word) (s : State) : Host.Outcome State Fault Refusal :=
  .next (if s.aIsNonzero then s.jump p else s.advance)

end Sys2Proof.Machine
end

