-- ==== Sys2Proof/Machine/Dispatch.lean ====
section
/-! DEFINITION. One arm per instruction (R50, R60). -/

namespace Sys2Proof.Machine

def exec (i : Instr) (s : State) : Host.Outcome State Fault Refusal :=
  match i with
  | .diva x => Sys2Proof.Machine.execDiva x s
  | .xori p => Sys2Proof.Machine.execXori p s
  | .mod8 x => Sys2Proof.Machine.execMod8 x s
  | .jnz p => Sys2Proof.Machine.execJnz p s
  | .xorc p => Sys2Proof.Machine.execXorc p s
  | .emit x => Sys2Proof.Machine.execEmit x s
  | .divb x => Sys2Proof.Machine.execDivb x s
  | .divc x => Sys2Proof.Machine.execDivc x s

end Sys2Proof.Machine
end

