-- ==== Sys2Proof/Machine/Fetch.lean ====
section
/-! DEFINITION. Fetch and the run loop's body (`40_fetch_decode.md` R60 to R66): the order of the checks is halt,
incomplete pair, illegal opcode, then the effect's own faults (R97). -/

namespace Sys2Proof.Machine

/-- What a fetch finds at the pointer: the end, one word without an operand, or a pair. -/
inductive Fetched where
  | atEnd
  | incompletePair
  | pair (op p : Word)
deriving DecidableEq, Repr

/-- Fetch at IP (R60 to R62). All comparisons are on natural numbers, so that IP + 1 does not wrap (R67); nothing is
read at the end or at the last index; any parity of IP fetches (R37). -/
def State.fetch (s : State) : Fetched :=
  if s.plen ≤ s.pc.toNat then .atEnd
  else if s.plen ≤ s.pc.toNat + 1 then .incompletePair
  else match s.program.read s.pc.toNat, s.program.read (s.pc.toNat + 1) with
    | some op, some p => .pair op p
    | _, _ => .incompletePair

/-- One pass of the loop body, for a machine that is RUNNING (R60). -/
def State.cycle (s : State) : Host.Outcome State Fault Refusal :=
  match s.fetch with
  | .atEnd => .next s.halt
  | .incompletePair => .next (s.raise .incompletePair s.pc)
  | .pair op p =>
    match decode op p with
    | .illegalOpcode w => .next (s.raise .illegalOpcode w)
    | .instr i => exec i s

/-- A state in which the next fetch finds the pair: STATUS = RUNNING, and the two words placed at IP, PLEN raised where
the pair lies beyond it. It stands for the host's load and `Init` (log 4). -/
def State.placePair (s : State) (op p : Word) : State :=
  { s with
    status := .running
    program := (s.program.extend (s.pc.toNat + 2)).write s.pc.toNat [op, p] }

end Sys2Proof.Machine
end

