-- ==== Sys2Proof/Machine/Step.lean ====
section
/-! DEFINITION. One step of the machine: one instruction, or the halt, in the status RUNNING alone (R6, R60). -/

namespace Sys2Proof.Machine

/-- `Step` is defined only when STATUS = RUNNING (R60); in every other status the machine is stuck (U16). -/
def step (s : State) : Host.Outcome State Fault Refusal :=
  if s.status = .running then s.cycle else .fault (.notRunning s.status)

/-- s with the instruction whose bits are w placed where the next step fetches, the machine RUNNING. -/
def State.withFetchWord (s : State) (nbits w : Nat) : State :=
  s.placePair (tableWords nbits w).1 (tableWords nbits w).2

end Sys2Proof.Machine
end

