-- ==== Sys2Proof/Machine/Assembler.lean ====
section
/-! DEFINITION. The spec's notation for programs and outputs (R55 to R57). No behaviour of the machine depends on it
(D14); tests and statements write programs with it. -/

namespace Sys2Proof.Machine

/-- One line of R55's syntax, as data: an instruction, an XORC with its operand omitted, `.word n`, a label, or a JNZ
whose operand is a label. -/
inductive AsmLine where
  | instr (i : Instr)
  | xorcAlone
  | word (n : Word)
  | label (name : String)
  | jnzTo (name : String)
deriving DecidableEq, Repr

/-- How many words a line takes: an instruction is two words whatever its opcode (R46). -/
def AsmLine.size : AsmLine → Nat
  | .instr _ => 2
  | .xorcAlone => 2
  | .word _ => 1
  | .label _ => 0
  | .jnzTo _ => 2

/-- The word index of the word after a label, for lines that begin at index `base`: a label stands for the index of the
next word (R55). Of two labels of one name the first counts (log 12). -/
def labelIndex (name : String) : Nat → List AsmLine → Option Nat
  | _, [] => none
  | base, l :: ls => if l = .label name then some base else labelIndex name (base + l.size) ls

/-- The words of one line; a JNZ to a label that no line declares has none (log 12). -/
def AsmLine.words (all : List AsmLine) : AsmLine → Option (List Word)
  | .instr i => some [(encode i).1, (encode i).2]
  | .xorcAlone => some [(encode (.xorc 0)).1, (encode (.xorc 0)).2]
  | .word n => some [n]
  | .label _ => some []
  | .jnzTo name => (labelIndex name 0 all).map fun t => [(encode (.jnz (BitVec.ofNat 64 t))).1, BitVec.ofNat 64 t]

/-- The words of the lines, in order; `all` is the whole source, in which labels are looked up. -/
def assembleLines (all : List AsmLine) : List AsmLine → Option (List Word)
  | [] => some []
  | l :: ls =>
    match l.words all, assembleLines all ls with
    | some w, some ws => some (w ++ ws)
    | _, _ => none

/-- The Program of a source (R55, R56). -/
def assemble (src : List AsmLine) : Option (List Word) := assembleLines src src

/-- The Program of a list of instructions: their pairs in order (R45). -/
def encodeProgram (is : List Instr) : List Word := is.flatMap fun i => [(encode i).1, (encode i).2]

/-- A combo operand as R55 writes it: `0` to `3`, `A`, `B`, `C`; a reserved operand word as its number (R97's `EMIT 7`). -/
def Combo.text : Combo → String
  | .const n => toString n.toNat
  | .reg .a => "A"
  | .reg .b => "B"
  | .reg .c => "C"
  | .reserved p => toString p.toNat

/-- An instruction's operand as R55 writes it. -/
def operandText : Instr → String
  | .diva x => Combo.text x
  | .xori p => toString p.toNat
  | .mod8 x => Combo.text x
  | .jnz p => toString p.toNat
  | .xorc p => toString p.toNat
  | .emit x => Combo.text x
  | .divb x => Combo.text x
  | .divc x => Combo.text x

/-- `MNEMONIC operand` (R55). -/
def instrText (i : Instr) : String := i.mnemonic ++ " " ++ operandText i

/-- A list of numbers in R56's and R57's notation: `[0,1,5,4,3,0]`. -/
def listText (ns : List Nat) : String := "[" ++ String.intercalate "," (ns.map toString) ++ "]"

/-- A Program's listing (R56). -/
def programText (ws : List Word) : String := listText (ws.map BitVec.toNat)

/-- An Output Stream's listing (R57). -/
def outText (es : List Elem) : String := listText (es.map BitVec.toNat)

end Sys2Proof.Machine
end

