-- ==== Sys2Proof/Machine/HostMoves.lean ====
section
/-! DEFINITION. What the host can do to the machine (`70_reset_and_hazards.md` R110 to R116): load, `Init`, read the
results, hardware reset. They are no part of `step`: the host acts between runs, in its own order. -/

namespace Sys2Proof.Machine

/-- PLEN is at most 2^64 - 2 and at most PMEM_WORDS (R31). -/
def Config.admits (c : Config) (n : Nat) : Bool :=
  decide (n ≤ maxPlen) && (match c.pmemWords with
    | none => true
    | some k => decide (n ≤ k))

/-- Load a Program (R33, R112, R113): only while STATUS is not RUNNING; it sets the words and PLEN and nothing else. -/
def hostLoad (ws : List Word) (s : State) : Host.Outcome State Fault Refusal :=
  if s.status = .running then .refused .hostMoveWhileRunning
  else if Config.admits s.config ws.length then .next { s with program := Memory.load ws }
  else .refused .programTooLong

/-- `Init` before its parity check: every piece of state is overwritten but the Program and the parameters (R23, R110). -/
def State.fresh (s : State) (a0 b0 c0 : Word) (m : Mode) : State :=
  { s with
    a := a0, b := b0, c := c0, pc := 0, out := [], mode := m, status := .running, cause := .none, info := 0,
    matched := false }

/-- Run initialisation (R110): only while STATUS is not RUNNING; an odd PLEN ends the run at once with
ODD_LENGTH(PLEN) (R91), else the run begins. -/
def hostInit (a0 b0 c0 : Word) (m : Mode) (s : State) : Host.Outcome State Fault Refusal :=
  if s.status = .running then .refused .hostMoveWhileRunning
  else if s.plen % 2 = 1 then .next ((s.fresh a0 b0 c0 m).raise .oddLength (BitVec.ofNat 64 s.plen))
  else .next (s.fresh a0 b0 c0 m)

/-- Hardware reset (R111), in any status: equivalent to power-on, so the values of R24 with those the model names for
what R24 leaves unspecified (log 9); the implementation's capacities stay. -/
def hardwareReset (s : State) : State := { State.reset with config := s.config }

/-- What the host gets back from a run that has ended (R113, R114). -/
structure RunResult where
  status : Status
  matched : Bool
  cause : Cause
  info : Word
  out : List Elem
  a : Word
  b : Word
  c : Word
  pc : Word
deriving DecidableEq, Repr

/-- Read the results (R113): only in HALTED, ABORTED and FAULTED; it changes nothing. -/
def hostRead (s : State) : Option RunResult :=
  if s.status.terminal then
    some { status := s.status, matched := s.matched, cause := s.cause, info := s.info, out := s.out,
           a := s.a, b := s.b, c := s.c, pc := s.pc }
  else none

end Sys2Proof.Machine
end

