-- ==== Sys2Proof/Machine/Driver.lean ====
section
/-! DEFINITION. The host's two uses of the machine: direct execution (R116) and the baseline Quine Search Driver
(R118, R119). They are host agents; the fuel is the model's own and no machine status (D20, log 11). -/

namespace Sys2Proof.Machine

/-- Step until STATUS is terminal (R115), with at most `fuel` steps; `none` where the fuel ends first or no run goes on. -/
def runToEnd : Nat → State → Option State
  | 0, s => if s.status.terminal then some s else none
  | n + 1, s =>
    if s.status.terminal then some s
    else match step s with
      | .next t => runToEnd n t
      | .fault _ => none
      | .refused _ => none

/-- One run: `Init`, then steps to a terminal STATUS. -/
def runFrom (fuel : Nat) (a0 b0 c0 : Word) (m : Mode) (s : State) : Option State :=
  match hostInit a0 b0 c0 m s with
  | .next t => runToEnd fuel t
  | .fault _ => none
  | .refused _ => none

/-- Direct execution (R116): `Init(A0, B0, C0, DIRECT)`, run to the end, read the results. -/
def directRun (fuel : Nat) (a0 b0 c0 : Word) (s : State) : Option RunResult :=
  (runFrom fuel a0 b0 c0 .direct s).bind hostRead

/-- A search's answer (R118, R119). `unresolved` is the model's own: a candidate that did not end within the fuel, or
a machine that was RUNNING when the search began (log 11). -/
inductive SearchResult where
  | found (seed : Nat)
  | fatal (cause : Cause) (info : Word)
  | notFound
  | unresolved (seed : Nat)
deriving DecidableEq, Repr

/-- A candidate succeeded: HALTED with MATCH = 1 (R103, R114). -/
def State.succeeded (s : State) : Bool := decide (s.status = .halted) && s.matched

/-- The driver's loop over `count` seeds from `seed` on, in increasing order; each candidate is a complete run, begun by
`Init` on whatever state the last one left (R118, R120). A fault ends the search (R119). -/
def searchFrom (fuel : Nat) (b0 c0 : Word) (seed : Nat) (s : State) : Nat → SearchResult
  | 0 => .notFound
  | count + 1 =>
    match runFrom fuel (BitVec.ofNat 64 seed) b0 c0 .search s with
    | none => .unresolved seed
    | some t =>
      if t.succeeded then .found seed
      else if t.status = .faulted then .fatal t.cause t.info
      else searchFrom fuel b0 c0 (seed + 1) t count

/-- `Search(B0, C0, SEED_MIN, SEED_MAX)` (R118): seeds from SEED_MIN up to SEED_MAX, and up to 2^64 - 1 at the latest;
`none` is a search without an upper bound of its own (D19). -/
def search (fuel : Nat) (b0 c0 : Word) (seedMin : Nat) (seedMax : Option Nat) (s : State) : SearchResult :=
  searchFrom fuel b0 c0 seedMin s (min (seedMax.getD (2 ^ 64 - 1)) (2 ^ 64 - 1) + 1 - seedMin)

end Sys2Proof.Machine
end

