-- ==== Sys2Proof/Machine/Reference.lean ====
section
/-! DEFINITION. The reference procedure of `95_test_vectors.md` Part 4, transcribed over natural numbers. It defines
nothing: where it and a rule disagree the rule governs. It takes no OUT_CAP; statements compare it with `step` for an
unbounded buffer. -/

namespace Sys2Proof.Machine

/-- The procedure's dictionary `s`, with the program and the flag `search` it takes beside it. -/
structure RefState where
  x0 : Nat
  x1 : Nat
  x2 : Nat
  ip : Nat
  out : List Nat
  status : Status
  cause : Nat
  info : Nat
  found : Bool
deriving DecidableEq, Repr

/-- `fault(s, c, i)`. -/
def RefState.fault (s : RefState) (c i : Nat) : RefState := { s with status := .faulted, cause := c, info := i }

/-- `x[op] = v`, for the destination `{0: 0, 6: 1, 7: 2}[op]` of a divide. -/
def RefState.setDest (s : RefState) (op v : Nat) : RefState :=
  if op = 0 then { s with x0 := v } else if op = 6 then { s with x1 := v } else { s with x2 := v }

/-- `s['ip'] += 2`. -/
def RefState.next (s : RefState) : RefState := { s with ip := s.ip + 2 }

/-- The combo value `v` of operand p, or none where the procedure faults with cause 4. -/
def RefState.combo (s : RefState) (p : Nat) : Option Nat :=
  if p ≤ 3 then some p
  else if p = 4 then some s.x0
  else if p = 5 then some s.x1
  else if p = 6 then some s.x2
  else none

/-- The branches of `step` that need the combo value, with v resolved. -/
def RefState.comboEffect (s : RefState) (P : List Nat) (search : Bool) (op v : Nat) : RefState :=
  if op = 0 ∨ op = 6 ∨ op = 7 then
    if 64 ≤ v then s.fault 5 v else (s.setDest op (s.x0 >>> v)).next
  else if op = 2 then { s with x1 := v % 8, ip := s.ip + 2 }
  else
    let out := s.out ++ [v % 8]
    let t := { s with out := out, ip := s.ip + 2 }
    if search = true ∧ (P.length < out.length ∨ P[out.length - 1]? ≠ some (v % 8)) then { t with status := .aborted }
    else t

/-- `step(s, P, search)`, for a state whose status is RUNNING. -/
def RefState.step (s : RefState) (P : List Nat) (search : Bool) : RefState :=
  if P.length ≤ s.ip then { s with status := .halted, found := search && decide (s.out = P) }
  else if P.length ≤ s.ip + 1 then s.fault 2 s.ip
  else
    let op := P.getD s.ip 0
    let p := P.getD (s.ip + 1) 0
    if 7 < op then s.fault 3 op
    else if op = 0 ∨ op = 2 ∨ op = 5 ∨ op = 6 ∨ op = 7 then
      match s.combo p with
      | none => s.fault 4 p
      | some v => s.comboEffect P search op v
    else if op = 1 then { s with x1 := s.x1 ^^^ p, ip := s.ip + 2 }
    else if op = 3 then (if s.x0 ≠ 0 then { s with ip := p } else s.next)
    else { s with x1 := s.x1 ^^^ s.x2, ip := s.ip + 2 }

/-- A state of the model as the procedure's dictionary. -/
def State.toRef (s : State) : RefState :=
  { x0 := s.a.toNat
    x1 := s.b.toNat
    x2 := s.c.toNat
    ip := s.pc.toNat
    out := s.out.map BitVec.toNat
    status := s.status
    cause := s.cause.code
    info := s.info.toNat
    found := s.matched }

/-- The Program as the procedure's `P`. -/
def State.refProgram (s : State) : List Nat := s.program.map BitVec.toNat

end Sys2Proof.Machine
end

