-- ==== Sys2Proof/Safety.lean ====
section
/-! DEFINITION. The terms in which statements about the machine are written: runs, the invariant of its states, the
register access matrix of R11, the value of a combo operand word (R63), and the fault a step owes by R97's order. -/

namespace Sys2Proof.Safety

open Sys2Proof.Machine

/-- The next state an outcome answers, if it answers one. -/
def nextState : Host.Outcome State Fault Refusal → Option State
  | .next t => some t
  | .fault _ => none
  | .refused _ => none

/-- `t` is reached from `s` by finitely many steps. -/
inductive Reaches : State → State → Prop where
  | refl (s : State) : Reaches s s
  | head {s t u : State} (first : step s = .next t) (rest : Reaches t u) : Reaches s u

/-- The run from `s` is over at `t`: the first state whose STATUS is HALTED, ABORTED or FAULTED (R115), which no step
leaves. -/
def EndsIn (s t : State) : Prop := Reaches s t ∧ t.status.terminal = true

/-- R63 read off the operand word: the constants 0 to 3, the registers at 4, 5, 6, no value from 7 on. -/
def comboValue (s : State) (p : Word) : Option Word :=
  if p.toNat ≤ 3 then some p
  else if p.toNat = 4 then some s.a
  else if p.toNat = 5 then some s.b
  else if p.toNat = 6 then some s.c
  else none

/-- R11's matrix, the columns "may read" and "reads when the combo operand selects it". -/
def readsReg : Instr → Reg → Bool
  | .diva x, r => decide (r = .a ∨ x = .reg r)
  | .xori _, r => decide (r = .b)
  | .mod8 x, r => decide (x = .reg r)
  | .jnz _, r => decide (r = .a)
  | .xorc _, r => decide (r = .b ∨ r = .c)
  | .emit x, r => decide (x = .reg r)
  | .divb x, r => decide (r = .a ∨ x = .reg r)
  | .divc x, r => decide (r = .a ∨ x = .reg r)

/-- R11's matrix, the column "writes": at most one register. -/
def writesReg : Instr → Option Reg
  | .diva _ => some .a
  | .xori _ => some .b
  | .mod8 _ => some .b
  | .jnz _ => none
  | .xorc _ => some .b
  | .emit _ => none
  | .divb _ => some .b
  | .divc _ => some .c

/-- The fault the effect of a pair owes (R92): none for the opcodes 1, 3 and 4; INVALID_COMBO before SHIFT_OVERFLOW and
OUTPUT_OVERFLOW for the combo opcodes (R97). -/
def effectFault (s : State) (op p : Word) : Option FaultRecord :=
  if op.toNat = 1 ∨ op.toNat = 3 ∨ op.toNat = 4 then none
  else match comboValue s p with
    | none => some { cause := .invalidCombo, info := p }
    | some k =>
      if op.toNat = 0 ∨ op.toNat = 6 ∨ op.toNat = 7 then
        (if 64 ≤ k.toNat then some { cause := .shiftOverflow, info := k } else none)
      else if op.toNat = 5 ∧ s.config.outCap = some s.out.length then
        some { cause := .outputOverflow, info := BitVec.ofNat 64 s.out.length }
      else none

/-- The fault a step owes, by the order of R97: the halt pre-empts all, then INCOMPLETE_PAIR, ILLEGAL_OPCODE, and the
faults of the effect. -/
def faultDue (s : State) : Option FaultRecord :=
  if s.plen ≤ s.pc.toNat then none
  else match s.program.read s.pc.toNat, s.program.read (s.pc.toNat + 1) with
    | some op, some p =>
      if 8 ≤ op.toNat then some { cause := .illegalOpcode, info := op } else effectFault s op p
    | _, _ => some { cause := .incompletePair, info := s.pc }

/-- The invariant of every state that the machine and its host can reach. -/
structure Inv (s : State) : Prop where
  /-- PLEN <= 2^64 - 2 (R31). -/
  plen_fits : s.program.wf = true
  /-- Every run that executes a step has PLEN even (R91). -/
  plen_even : s.status = .running → s.plen % 2 = 0
  /-- When STATUS is not FAULTED, CAUSE = 0 and INFO = 0 (R18). -/
  no_record : s.status ≠ .faulted → s.cause = .none ∧ s.info = 0
  /-- A FAULTED run names its cause (R18). -/
  has_record : s.status = .faulted → s.cause ≠ .none
  /-- MATCH = 1 implies STATUS = HALTED, and it stays 0 in DIRECT (R19). -/
  match_halted : s.matched = true → s.status = .halted ∧ s.mode = .search
  /-- ABORTED only in MODE = SEARCH (R17, R86). -/
  aborted_search : s.status = .aborted → s.mode = .search
  /-- While RUNNING in SEARCH, Out is a beginning of Program, element for element (R22, R85). -/
  search_agrees : s.status = .running → s.mode = .search → s.outWords <+: s.program
  /-- Out never outgrows a finite OUT_CAP (R95). -/
  within_cap : ∀ n, s.config.outCap = some n → s.out.length ≤ n

/-- The quine property of a seed (R120): direct execution with A = seed ends HALTED with Out = Program. -/
def DirectQuine (s : State) (b0 c0 : Word) (seed : Nat) : Prop :=
  ∃ t u, hostInit (BitVec.ofNat 64 seed) b0 c0 .direct s = .next t ∧ EndsIn t u ∧ u.status = .halted ∧
    u.outWords = s.program

end Sys2Proof.Safety
end

