-- ==== Sys2Proof/Certificates/Slice0/Obligations.lean ====
section
/-! DEFINITION. The statements for the provers, spec file by spec file. -/

open Sys2Proof Sys2Proof.Machine Sys2Proof.Safety

/-! ### Encoding (`30_encoding.md`) -/

/-- R45, R47, R50: decoding the pair of a well-formed instruction gives the instruction back, every operand bit kept. -/
def Obligations.DecodeOfEncode : Prop :=
  ∀ i : Instr, i.wf = true → decode (encode i).1 (encode i).2 = .instr i

/-- R45, R50: each pair has one meaning: what a pair decodes to is well-formed and encodes to that very pair. For XORC,
whose operand words all give the same instruction (R53), this rests on the model's choice to keep the ignored operand word
in the term (log 14), and on no rule. -/
def Obligations.EncodeOfDecode : Prop :=
  ∀ (op p : Word) (i : Instr), decode op p = .instr i → i.wf = true ∧ encode i = (op, p)

/-- R50, R51, R54: the decoder agrees with `opcode_table.json`. A pair decodes to an instruction exactly when some row's
mask and match select its opcode word; then exactly one row does, and it carries the instruction's mnemonic. A word that
no row matches is illegal. -/
def Obligations.OpcodeTableSelectsTheInstruction : Prop :=
  ∀ op p : Word,
    (∀ i, decode op p = .instr i →
      ∃ row ∈ opcodeTable, row.matches op = true ∧ row.mnemonic = i.mnemonic ∧
        ∀ other ∈ opcodeTable, other.matches op = true → other = row) ∧
    (∀ row ∈ opcodeTable, row.matches op = true → ∃ i, decode op p = .instr i ∧ i.mnemonic = row.mnemonic) ∧
    ((∀ row ∈ opcodeTable, row.matches op = false) → decode op p = .illegalOpcode op)

/-- R50, R52, R53, R54: words written out from the encoding, an operand of each kind among them. -/
def Obligations.WordsOfTheTableDecode : Prop :=
  decode 0 2 = .instr (.diva (.const 2)) ∧ decode 1 7 = .instr (.xori 7) ∧ decode 2 4 = .instr (.mod8 (.reg .a)) ∧
  decode 3 0x8000000000000000 = .instr (.jnz 0x8000000000000000) ∧ decode 4 7 = .instr (.xorc 7) ∧
  decode 5 5 = .instr (.emit (.reg .b)) ∧ decode 6 7 = .instr (.divb (.reserved 7)) ∧
  decode 7 6 = .instr (.divc (.reg .c)) ∧ decode 8 0 = .illegalOpcode 8 ∧
  decode 0x8000000000000000 0 = .illegalOpcode 0x8000000000000000

/-- R45, R46, R56: a Program written as a list of well-formed instructions holds instruction k at the word indices 2k and
2k + 1, and nothing else. -/
def Obligations.EncodedProgramHoldsItsInstructions : Prop :=
  ∀ (is : List Instr) (k : Nat) (i : Instr), (∀ j ∈ is, j.wf = true) → is[k]? = some i →
    (encodeProgram is).length = 2 * is.length ∧
    ∃ op p, Memory.read (encodeProgram is) (2 * k) = some op ∧ Memory.read (encodeProgram is) (2 * k + 1) = some p ∧
      decode op p = .instr i

/-- R55, R56: a source that is only instructions assembles to the pairs of its instructions, in order. -/
def Obligations.InstructionLinesAssembleToTheirPairs : Prop :=
  ∀ is : List Instr, assemble (is.map .instr) = some (encodeProgram is)

/-! ### Registers and pointer (`10_state.md`) -/

/-- R10: three distinct cells; a write to one is read back from it and changes no other cell, no register is hardwired,
and combo operand 4 + i, as the instructions decode and resolve it, selects register i. -/
def Obligations.RegistersAreThreeDistinctCells : Prop :=
  ∀ (s : State) (r q : Reg) (v : Word),
    (s.writeReg r v).readReg q = (if q = r then v else s.readReg q) ∧
    (s.writeReg r v).pc = s.pc ∧ (s.writeReg r v).out = s.out ∧ (s.writeReg r v).status = s.status ∧
    (s.writeReg r v).program = s.program ∧
    s.combo (decodeCombo 4) = .ok (s.readReg .a) ∧ s.combo (decodeCombo 5) = .ok (s.readReg .b) ∧
    s.combo (decodeCombo 6) = .ok (s.readReg .c)

/-- R11, the matrix's columns "writes": an instruction changes no register but the one its row writes, and an
instruction that ends in a fault changes none. -/
def Obligations.OnlyTheMatrixRegisterIsWritten : Prop :=
  ∀ (i : Instr) (s t : State), exec i s = .next t →
    (∀ r, writesReg i ≠ some r → t.readReg r = s.readReg r) ∧
    (s.status ≠ .faulted → t.status = .faulted → ∀ r, t.readReg r = s.readReg r)

/-- R11, the matrix's columns "reads": a register that an instruction does not read makes no difference to anything the
instruction does: with another value in it, the same next state results, but for that register, where the instruction
does not overwrite it. -/
def Obligations.UnreadRegistersMakeNoDifference : Prop :=
  ∀ (i : Instr) (r : Reg) (v : Word) (s : State), readsReg i r = false →
    ∃ t t', exec i s = .next t ∧ exec i (s.writeReg r v) = .next t' ∧
      (t' = t.writeReg r v ∨ (writesReg i = some r ∧ t' = t))

/-- R13, R66: an instruction that faults leaves IP; every other adds 2, an aborting EMIT among them, except a taken JNZ,
which loads its literal. -/
def Obligations.PointerAdvancesByTwoOrJumps : Prop :=
  ∀ (i : Instr) (s t : State), s.status = .running → exec i s = .next t →
    (t.status = .faulted → t.pc = s.pc) ∧
    (t.status ≠ .faulted → (∀ p, i = .jnz p → s.a ≠ 0 → t.pc = p) ∧
      ((∀ p, i = .jnz p → s.a = 0) → t.pc = s.pc + 2))

/-- R67, R37: in a step that executes a pair and neither faults nor takes a jump, IP + 2 does not wrap and stays within
PLEN, and keeps its parity. -/
def Obligations.PointerNeverWraps : Prop :=
  ∀ (s t : State) (op p : Word), Inv s → s.status = .running → s.program.read s.pc.toNat = some op →
    s.program.read (s.pc.toNat + 1) = some p → step s = .next t → t.status ≠ .faulted → ¬(op = 3 ∧ s.a ≠ 0) →
    t.pc.toNat = s.pc.toNat + 2 ∧ t.pc.toNat ≤ s.plen ∧ t.pc.toNat % 2 = s.pc.toNat % 2

/-! ### Fetch and the step (`40_fetch_decode.md`) -/

/-- R60: when the words at IP and IP + 1 decode to an instruction, a step of a RUNNING machine is `exec` of it on that
state, and nothing is added around it. -/
def Obligations.StepRunsTheDecodedInstruction : Prop :=
  ∀ (s : State) (op p : Word) (i : Instr), s.status = .running → s.program.read s.pc.toNat = some op →
    s.program.read (s.pc.toNat + 1) = some p → decode op p = .instr i → step s = exec i s

/-- R61: a step that begins with IP >= PLEN ends the run: STATUS <- HALTED, MATCH <- (MODE = SEARCH) and
(Out = Program), and nothing else changes; no other step ends HALTED. With PLEN = 0 the first step halts, in SEARCH with
MATCH = 1 for an empty Out. -/
def Obligations.StepHaltsAtOrBeyondPlen : Prop :=
  ∀ s : State, s.status = .running →
    (s.plen ≤ s.pc.toNat →
      step s = .next { s with
        status := .halted
        matched := decide (s.mode = .search ∧ s.out.length = s.plen ∧
          ∀ i, i < s.plen → (s.out[i]?).map zext64 = s.program.read i) }) ∧
    (∀ t, step s = .next t → t.status = .halted → s.plen ≤ s.pc.toNat) ∧
    (s.program = [] → s.out = [] → s.mode = .search → ∃ t, step s = .next t ∧ t.status = .halted ∧ t.matched = true)

/-- R62: a step that begins with IP = PLEN - 1 takes INCOMPLETE_PAIR(IP), whatever word stands there; with PLEN even such
an IP is odd; an odd IP with a following word executes its pair like any other. -/
def Obligations.LastIndexTakesIncompletePair : Prop :=
  ∀ s : State, s.status = .running →
    (s.pc.toNat + 1 = s.plen →
      step s = .next { s with status := .faulted, cause := .incompletePair, info := s.pc }) ∧
    (s.pc.toNat + 1 = s.plen → s.plen % 2 = 0 → s.pc.toNat % 2 = 1) ∧
    (∀ op p i, s.pc.toNat % 2 = 1 → s.program.read s.pc.toNat = some op →
      s.program.read (s.pc.toNat + 1) = some p → decode op p = .instr i → step s = exec i s)

/-- R65: an opcode word of 8 or more takes ILLEGAL_OPCODE recording the word, whatever its operand word; every word 0 to
7 has an instruction. -/
def Obligations.OpcodeWordOutsideTableIsIllegal : Prop :=
  ∀ (s : State) (op p : Word), s.status = .running → s.program.read s.pc.toNat = some op →
    s.program.read (s.pc.toNat + 1) = some p →
    (8 ≤ op.toNat → step s = .next { s with status := .faulted, cause := .illegalOpcode, info := op }) ∧
    (op.toNat < 8 → ∃ i, encode i = (op, p) ∧ step s = exec i s)

/-- R60, R17, U16: no step is defined in a status other than RUNNING: the machine is stuck there, which the model says by
its fault `notRunning` (log 5). -/
def Obligations.StepIsStuckUnlessRunning : Prop :=
  ∀ s : State, s.status ≠ .running → step s = .fault (.notRunning s.status)

/-- R60, R103 and the end of 93 Part 1: a RUNNING machine always takes its next step. -/
def Obligations.RunningMachineAlwaysSteps : Prop :=
  ∀ s : State, s.status = .running → ∃ t, step s = .next t

/-- R90, R92, R96, R97: a step takes the first fault due by the fixed order, precisely (STATUS, CAUSE and INFO are
written and nothing else), and a step that owes none does not end FAULTED. The INFO of OUTPUT_OVERFLOW rests on log 8
from len(Out) = 2^64 on. -/
def Obligations.StepTakesTheFirstFaultDue : Prop :=
  ∀ s : State, s.status = .running →
    (∀ f, faultDue s = some f →
      step s = .next { s with status := .faulted, cause := f.cause, info := f.info }) ∧
    (faultDue s = none → ∃ t, step s = .next t ∧ t.status ≠ .faulted)

/-- R69: a JNZ whose target is its own index, with A not 0, is its own next state for ever: STATUS stays RUNNING. -/
def Obligations.JumpToItselfNeverEnds : Prop :=
  ∀ s : State, s.status = .running → s.a ≠ 0 → s.program.read s.pc.toNat = some 3 →
    s.program.read (s.pc.toNat + 1) = some s.pc → step s = .next s ∧ ∀ t, Reaches s t → t = s

/-- R22 (a), R12: in a Program of even length whose JNZ pairs at even indices all have even targets, a pointer that is
even stays even over any number of steps, and so always references a whole pair unless it is at or beyond the end. -/
def Obligations.EvenJumpTargetsKeepPairsWhole : Prop :=
  ∀ s t : State, s.plen % 2 = 0 → s.pc.toNat % 2 = 0 →
    (∀ k p, s.program.read (2 * k) = some 3 → s.program.read (2 * k + 1) = some p → p.toNat % 2 = 0) →
    Reaches s t → t.pc.toNat % 2 = 0 ∧ (t.pc.toNat + 1 < t.plen ∨ t.plen ≤ t.pc.toNat)

/-! ### Divide (`41_divide.md`) -/

/-- R70: division by 2^k is exact and truncating for k <= 63 and never more than the dividend; from k = 64 on it is
SHIFT_OVERFLOW(k), compared on the full k; a constant operand never reaches 64. -/
def Obligations.DivisionByPowerOfTwo : Prop :=
  (∀ a k : Word, 64 ≤ k.toNat → div2 a k = .error { cause := .shiftOverflow, info := k }) ∧
  (∀ a k : Word, k.toNat < 64 → ∃ v, div2 a k = .ok v ∧ v.toNat = a.toNat / 2 ^ k.toNat ∧ v.toNat ≤ a.toNat) ∧
  (∀ (s : State) (p k : Word), p.toNat ≤ 3 → comboValue s p = some k → k.toNat < 64)

/-- R71: DIVA. Its words; A <- A / 2^k truncated and IP + 2, nothing else changed, for k below 64; SHIFT_OVERFLOW(k) from
64 on; INVALID_COMBO(p) where p selects no value; by its own value A <= 63 it leaves 0. -/
def Obligations.DivaDividesA : Prop :=
  ∀ (s : State) (p : Word),
    decode 0 p = .instr (.diva (decodeCombo p)) ∧
    (∀ k, comboValue s p = some k → k.toNat < 64 →
      exec (.diva (decodeCombo p)) s
        = .next { s with a := BitVec.ofNat 64 (s.a.toNat / 2 ^ k.toNat), pc := s.pc + 2 }) ∧
    (∀ k, comboValue s p = some k → 64 ≤ k.toNat →
      exec (.diva (decodeCombo p)) s = .next { s with status := .faulted, cause := .shiftOverflow, info := k }) ∧
    (7 ≤ p.toNat →
      exec (.diva (decodeCombo p)) s = .next { s with status := .faulted, cause := .invalidCombo, info := p }) ∧
    (s.a.toNat < 64 → exec (.diva (.reg .a)) s = .next { s with a := 0, pc := s.pc + 2 })

/-- R72: DIVB. As DIVA, into B: the dividend is A, and A is not changed; operand 0 copies A into B. -/
def Obligations.DivbDividesAIntoB : Prop :=
  ∀ (s : State) (p : Word),
    decode 6 p = .instr (.divb (decodeCombo p)) ∧
    (∀ k, comboValue s p = some k → k.toNat < 64 →
      exec (.divb (decodeCombo p)) s
        = .next { s with b := BitVec.ofNat 64 (s.a.toNat / 2 ^ k.toNat), pc := s.pc + 2 }) ∧
    (∀ k, comboValue s p = some k → 64 ≤ k.toNat →
      exec (.divb (decodeCombo p)) s = .next { s with status := .faulted, cause := .shiftOverflow, info := k }) ∧
    (7 ≤ p.toNat →
      exec (.divb (decodeCombo p)) s = .next { s with status := .faulted, cause := .invalidCombo, info := p }) ∧
    exec (.divb (decodeCombo 0)) s = .next { s with b := s.a, pc := s.pc + 2 }

/-- R73: DIVC. As DIVA, into C: the dividend is A, and A is not changed; operand 0 copies A into C. -/
def Obligations.DivcDividesAIntoC : Prop :=
  ∀ (s : State) (p : Word),
    decode 7 p = .instr (.divc (decodeCombo p)) ∧
    (∀ k, comboValue s p = some k → k.toNat < 64 →
      exec (.divc (decodeCombo p)) s
        = .next { s with c := BitVec.ofNat 64 (s.a.toNat / 2 ^ k.toNat), pc := s.pc + 2 }) ∧
    (∀ k, comboValue s p = some k → 64 ≤ k.toNat →
      exec (.divc (decodeCombo p)) s = .next { s with status := .faulted, cause := .shiftOverflow, info := k }) ∧
    (7 ≤ p.toNat →
      exec (.divc (decodeCombo p)) s = .next { s with status := .faulted, cause := .invalidCombo, info := p }) ∧
    exec (.divc (decodeCombo 0)) s = .next { s with c := s.a, pc := s.pc + 2 }

/-! ### Bitwise (`42_bitwise.md`) -/

/-- R75: XORI. Its words; for every operand word, each bit of B is the exclusive or of B's and the operand's, IP + 2, and
nothing else changes; 0 leaves B, all ones complements it, and the same XORI twice restores it. -/
def Obligations.XoriXorsTheLiteral : Prop :=
  ∀ (s : State) (p : Word),
    decode 1 p = .instr (.xori p) ∧
    (∃ t, exec (.xori p) s = .next t ∧ t = { s with b := t.b, pc := s.pc + 2 } ∧
      (∀ n, t.b.getLsbD n = (s.b.getLsbD n != p.getLsbD n)) ∧
      (p = 0 → t.b = s.b) ∧ (p = BitVec.allOnes 64 → t.b = ~~~s.b) ∧
      (∃ u, exec (.xori p) t = .next u ∧ u.b = s.b))

/-- R76: MOD8. Its words; B <- the combo value mod 8 (so bits 63..3 are 0), IP + 2, nothing else changed, for a value of
any size; INVALID_COMBO(p) where p selects no value. -/
def Obligations.Mod8LoadsTheLowThreeBits : Prop :=
  ∀ (s : State) (p : Word),
    decode 2 p = .instr (.mod8 (decodeCombo p)) ∧
    (∀ v, comboValue s p = some v →
      exec (.mod8 (decodeCombo p)) s = .next { s with b := BitVec.ofNat 64 (v.toNat % 8), pc := s.pc + 2 }) ∧
    (7 ≤ p.toNat →
      exec (.mod8 (decodeCombo p)) s = .next { s with status := .faulted, cause := .invalidCombo, info := p })

/-- R77: XORC. Every operand word gives it; each bit of B is the exclusive or of B's and C's, IP + 2, nothing else
changes, whatever the operand word; C = 0 leaves B, B = C gives 0, twice restores B. The operand word must exist: at
PLEN - 1 the step takes INCOMPLETE_PAIR. -/
def Obligations.XorcXorsC : Prop :=
  ∀ (s : State) (p : Word),
    decode 4 p = .instr (.xorc p) ∧
    (∃ t, (∀ q, exec (.xorc q) s = .next t) ∧ t = { s with b := t.b, pc := s.pc + 2 } ∧
      (∀ n, t.b.getLsbD n = (s.b.getLsbD n != s.c.getLsbD n)) ∧
      (s.c = 0 → t.b = s.b) ∧ (s.b = s.c → t.b = 0) ∧ (∃ u, exec (.xorc p) t = .next u ∧ u.b = s.b)) ∧
    (s.status = .running → s.program.read s.pc.toNat = some 4 → s.pc.toNat + 1 = s.plen →
      step s = .next { s with status := .faulted, cause := .incompletePair, info := s.pc })

/-! ### Jump (`43_jump.md`) -/

/-- R80: JNZ. Its words; with A not 0, IP <- the literal and nothing else changes; with A = 0, IP + 2 and nothing else
changes; no target faults at the jump. What a taken jump leads to is decided by the next step: at or beyond PLEN it
halts, at PLEN - 1 it takes INCOMPLETE_PAIR recording the target, below that the pair at the target is fetched. -/
def Obligations.JnzJumpsWhenAIsNotZero : Prop :=
  ∀ (s : State) (p : Word),
    decode 3 p = .instr (.jnz p) ∧
    (s.a = 0 → exec (.jnz p) s = .next { s with pc := s.pc + 2 }) ∧
    (s.a ≠ 0 → ∃ t, exec (.jnz p) s = .next t ∧ t = { s with pc := p } ∧
      (s.status = .running → s.plen ≤ p.toNat → ∃ u, step t = .next u ∧ u.status = .halted ∧ u.pc = p) ∧
      (s.status = .running → p.toNat + 1 = s.plen →
        step t = .next { t with status := .faulted, cause := .incompletePair, info := p }) ∧
      (p.toNat + 1 < s.plen → ∃ op q, s.program.read p.toNat = some op ∧ s.program.read (p.toNat + 1) = some q ∧
        t.fetch = .pair op q))

/-! ### Emit and the comparator (`44_emit.md`) -/

/-- R83: EMIT. Its words; it appends the combo value mod 8 at the end of Out and adds 2 to IP, changing nothing else but,
in SEARCH, STATUS (the comparator's); INVALID_COMBO(p) before OUTPUT_OVERFLOW(len(Out)), which a full finite buffer
raises before appending (of INFO it says what R96 says: the number len(Out), where 64 bits hold it). -/
def Obligations.EmitAppendsToOut : Prop :=
  ∀ (s : State) (p : Word),
    decode 5 p = .instr (.emit (decodeCombo p)) ∧
    (∀ v, comboValue s p = some v → s.config.outCap ≠ some s.out.length →
      ∃ st, exec (.emit (decodeCombo p)) s
          = .next { s with out := s.out ++ [BitVec.ofNat 3 (v.toNat % 8)], pc := s.pc + 2, status := st } ∧
        (s.mode = .direct → st = s.status) ∧ (st ≠ s.status → st = .aborted)) ∧
    (∀ v, comboValue s p = some v → s.config.outCap = some s.out.length →
      ∃ len, exec (.emit (decodeCombo p)) s
          = .next { s with status := .faulted, cause := .outputOverflow, info := len } ∧
        (s.out.length < 2 ^ 64 → len.toNat = s.out.length)) ∧
    (7 ≤ p.toNat →
      exec (.emit (decodeCombo p)) s = .next { s with status := .faulted, cause := .invalidCombo, info := p })

/-- R84: in SEARCH, and only then, EMIT compares: it aborts where Out is now longer than Program, and otherwise exactly
where the new element, as a 64-bit value, differs from Program[n - 1], so at every word of 8 or more; the element stays
appended and IP advanced, MATCH stays, and no cause is recorded. -/
def Obligations.SearchComparatorAborts : Prop :=
  ∀ (s : State) (p v : Word), comboValue s p = some v → s.config.outCap ≠ some s.out.length →
    (s.mode = .direct →
      exec (.emit (decodeCombo p)) s
        = .next { s with out := s.out ++ [BitVec.ofNat 3 v.toNat], pc := s.pc + 2 }) ∧
    (s.mode = .search → s.plen < s.out.length + 1 →
      exec (.emit (decodeCombo p)) s
        = .next { s with out := s.out ++ [BitVec.ofNat 3 v.toNat], pc := s.pc + 2, status := .aborted }) ∧
    (∀ w, s.mode = .search → s.program.read s.out.length = some w →
      (w.toNat ≠ v.toNat % 8 →
        exec (.emit (decodeCombo p)) s
          = .next { s with out := s.out ++ [BitVec.ofNat 3 v.toNat], pc := s.pc + 2, status := .aborted }) ∧
      (w.toNat = v.toNat % 8 →
        exec (.emit (decodeCombo p)) s
          = .next { s with out := s.out ++ [BitVec.ofNat 3 v.toNat], pc := s.pc + 2 }) ∧
      (8 ≤ w.toNat → ∃ t, exec (.emit (decodeCombo p)) s = .next t ∧ t.status = .aborted))

/-- R14: Out is append-only. An instruction leaves it or, an EMIT, adds one element at its end; over any number of steps
the old Out stays the beginning of the new. -/
def Obligations.OutIsAppendOnly : Prop :=
  (∀ (i : Instr) (s t : State), exec i s = .next t →
    t.out = s.out ∨ ∃ x e, i = .emit x ∧ t.out = s.out ++ [e]) ∧
  (∀ s t : State, Reaches s t → s.out <+: t.out)

/-- R15: in SEARCH the length of Out never exceeds PLEN + 1. -/
def Obligations.SearchOutIsAtMostOneTooLong : Prop :=
  ∀ s t : State, Inv s → s.status = .running → s.mode = .search → step s = .next t → t.out.length ≤ t.plen + 1

/-- R16: MODE changes the behaviour of EMIT alone among the instructions. -/
def Obligations.ModeMattersOnlyToEmit : Prop :=
  ∀ (i : Instr) (m : Mode) (s : State), (∀ x, i ≠ .emit x) →
    ∃ t, exec i s = .next t ∧ exec i { s with mode := m } = .next { t with mode := m }

/-- R86, R32: in DIRECT no instruction looks at the program memory, EMIT's comparator included, and none aborts. -/
def Obligations.DirectModeNeverCompares : Prop :=
  ∀ (i : Instr) (s : State) (other : Memory), s.mode = .direct →
    ∃ t, exec i s = .next t ∧ exec i { s with program := other } = .next { t with program := other } ∧
      (s.status ≠ .aborted → t.status ≠ .aborted)

/-- R95, R15: with an unbounded buffer no run ever ends in OUTPUT_OVERFLOW. -/
def Obligations.UnboundedBufferNeverOverflows : Prop :=
  ∀ (s0 s t : State) (a0 b0 c0 : Word) (m : Mode), s0.config.outCap = none → hostInit a0 b0 c0 m s0 = .next s →
    Reaches s t → t.cause ≠ .outputOverflow

/-! ### What no instruction changes -/

/-- R21, R33, R16, R19, R18, R96: the frame of every instruction: no word of the program memory, no length, no mode, no
parameter and no MATCH changes, and the fault record only where the instruction ends FAULTED. -/
def Obligations.InstructionsLeaveTheRestUnchanged : Prop :=
  ∀ (i : Instr) (s : State), ∃ t, exec i s = .next t ∧
    (∀ n, t.program.read n = s.program.read n) ∧ t.plen = s.plen ∧ t.mode = s.mode ∧ t.config = s.config ∧
    t.matched = s.matched ∧ (t.status ≠ .faulted → t.cause = s.cause ∧ t.info = s.info) ∧
    (s.status ≠ .faulted → t.status = .faulted → t.out = s.out ∧ t.pc = s.pc)

/-- R21, R33, R43, R16: Program, PLEN and MODE are constant over a run. -/
def Obligations.ProgramAndModeAreConstantOverARun : Prop :=
  ∀ s t : State, Reaches s t → t.program = s.program ∧ t.mode = s.mode ∧ t.config = s.config

/-! ### Invariants and outcomes (`10_state.md`, `60_exceptions.md`) -/

/-- The invariant holds at power-on: by R24 for STATUS, CAUSE, INFO and MATCH, by the model's choice for the empty program
memory (log 2) and the empty Out (log 3), which the spec leaves unspecified. -/
def Obligations.InvariantHoldsAtReset : Prop := Inv State.reset

/-- Every step keeps the invariant (R17, R18, R19, R22, R31, R85, R91, R95). -/
def Obligations.StepKeepsTheInvariant : Prop :=
  ∀ s t : State, Inv s → step s = .next t → Inv t

/-- Every host move keeps the invariant (R33, R110, R111, R113); `Init` in particular makes it hold for a RUNNING run. For
the hardware reset this rests on the values the model names (log 9). -/
def Obligations.HostMovesKeepTheInvariant : Prop :=
  ∀ s : State, Inv s →
    (∀ ws t, hostLoad ws s = .next t → Inv t) ∧
    (∀ a0 b0 c0 m t, hostInit a0 b0 c0 m s = .next t → Inv t) ∧
    Inv (hardwareReset s)

/-- R19: at a halt in SEARCH, MATCH is 1 exactly when Out equals Program, and exactly when their lengths agree; in DIRECT
it is 0. -/
def Obligations.MatchAtHalt : Prop :=
  ∀ s t : State, Inv s → s.status = .running → step s = .next t → t.status = .halted →
    (t.mode = .search → (t.matched = true ↔ t.outWords = t.program) ∧ (t.matched = true ↔ t.out.length = t.plen)) ∧
    (t.mode = .direct → t.matched = false)

/-- R103: how a run that ends does so: for a run begun by `Init`, one of the five rows of the table holds at its end. -/
def Obligations.RunEndsInOneOfFiveWays : Prop :=
  ∀ (s0 s t : State) (a0 b0 c0 : Word) (m : Mode), hostInit a0 b0 c0 m s0 = .next s → EndsIn s t →
    (t.status = .halted ∧ t.matched = false ∧ t.mode = .direct) ∨
    (t.status = .halted ∧ t.matched = true ∧ t.mode = .search ∧ t.outWords = t.program) ∨
    (t.status = .halted ∧ t.matched = false ∧ t.mode = .search ∧ t.out.length < t.plen ∧ t.outWords <+: t.program) ∨
    (t.status = .aborted ∧ t.matched = false ∧ t.mode = .search ∧ t.cause = .none ∧ ¬ t.outWords <+: t.program) ∨
    (t.status = .faulted ∧ t.matched = false ∧ t.cause ≠ .none)

/-- R98, R17: a terminal state has no successor but a new `Init`: no step leaves it. -/
def Obligations.TerminalStatesAreFinal : Prop :=
  ∀ s t : State, s.status.terminal = true → Reaches s t → t = s

/-- R3, R115: the end of a run is a function of its beginning: a run has at most one final state. -/
def Obligations.ARunHasOneFinalState : Prop :=
  ∀ s t u : State, EndsIn s t → EndsIn s u → t = u

/-! ### Run initialisation and the host (`70_reset_and_hazards.md`) -/

/-- R110: `Init` overwrites every piece of Machine State, only while STATUS is not RUNNING; with PLEN odd the run ends at
once with ODD_LENGTH(PLEN), else it is RUNNING; nothing of a previous run survives, so that states which agree on Program
and parameters start the same run. -/
def Obligations.InitStartsAFreshRun : Prop :=
  ∀ (s : State) (a0 b0 c0 : Word) (m : Mode),
    (s.status = .running → ∀ t, hostInit a0 b0 c0 m s ≠ .next t) ∧
    (s.status ≠ .running → s.plen % 2 = 0 →
      hostInit a0 b0 c0 m s = .next
        { a := a0, b := b0, c := c0, pc := 0, out := [], mode := m, status := .running, cause := .none, info := 0,
          matched := false, program := s.program, config := s.config }) ∧
    (s.status ≠ .running → s.plen % 2 = 1 →
      hostInit a0 b0 c0 m s = .next
        { a := a0, b := b0, c := c0, pc := 0, out := [], mode := m, status := .faulted, cause := .oddLength,
          info := BitVec.ofNat 64 s.plen, matched := false, program := s.program, config := s.config }) ∧
    (∀ s' : State, s.status ≠ .running → s'.status ≠ .running → s'.program = s.program → s'.config = s.config →
      hostInit a0 b0 c0 m s' = hostInit a0 b0 c0 m s)

/-- R33, R31, R113: the host loads a Program only while STATUS is not RUNNING; the words and PLEN become those loaded and
nothing else changes; a Program beyond 2^64 - 2 words, or beyond a finite PMEM_WORDS, is not loaded. That the model meets
such a load with a refusal is its own choice (log 10). -/
def Obligations.LoadReplacesTheProgram : Prop :=
  ∀ (s : State) (ws : List Word),
    (s.status = .running → ∀ t, hostLoad ws s ≠ .next t) ∧
    (s.status ≠ .running → ws.length ≤ 2 ^ 64 - 2 → (∀ k, s.config.pmemWords = some k → ws.length ≤ k) →
      hostLoad ws s = .next { s with program := ws }) ∧
    (2 ^ 64 - 2 < ws.length → ∀ t, hostLoad ws s ≠ .next t) ∧
    (∀ k, s.config.pmemWords = some k → k < ws.length → ∀ t, hostLoad ws s ≠ .next t)

/-- R113, R114, R24: the results are readable exactly in the terminal statuses, and are the final state's. -/
def Obligations.ResultsAreReadableAtTheEnd : Prop :=
  ∀ s : State,
    ((∃ r, hostRead s = some r) ↔ (s.status = .halted ∨ s.status = .aborted ∨ s.status = .faulted)) ∧
    (∀ r, hostRead s = some r → r.status = s.status ∧ r.matched = s.matched ∧ r.cause = s.cause ∧ r.info = s.info ∧
      r.out = s.out ∧ r.a = s.a ∧ r.b = s.b ∧ r.c = s.c ∧ r.pc = s.pc)

/-- R116, R114: direct execution returns what its run leaves: the results of the final state of a run begun by `Init` in
DIRECT, with the status HALTED or FAULTED and MATCH = 0. The fuel is the model's own (log 11). -/
def Obligations.DirectExecutionReturnsTheFinalState : Prop :=
  ∀ (s : State) (a0 b0 c0 : Word) (fuel : Nat) (r : RunResult), directRun fuel a0 b0 c0 s = some r →
    (∃ t u, hostInit a0 b0 c0 .direct s = .next t ∧ EndsIn t u ∧ hostRead u = some r) ∧
    (r.status = .halted ∨ r.status = .faulted) ∧ r.matched = false

/-- R85: while a search run is RUNNING, Out is a beginning of Program; a search run that halts has MATCH = 1 exactly when
Out has PLEN elements; and the search run succeeds exactly when the direct run of the same inputs halts with Out equal to
Program. -/
def Obligations.EarlyAbortChangesNoAnswer : Prop :=
  ∀ (s ss sd : State) (a0 b0 c0 : Word), hostInit a0 b0 c0 .search s = .next ss →
    hostInit a0 b0 c0 .direct s = .next sd →
    (∀ t, Reaches ss t → t.status = .running → t.outWords <+: t.program) ∧
    (∀ t, Reaches ss t → t.status = .halted → (t.matched = true ↔ t.out.length = t.plen)) ∧
    ((∃ t, EndsIn ss t ∧ t.status = .halted ∧ t.matched = true) ↔
      (∃ t, EndsIn sd t ∧ t.status = .halted ∧ t.outWords = t.program))

/-- R118, R120: a seed the search finds lies in its range, has the quine property in direct execution, and is the least
such seed of the range; a search that ends NotFound has none in its range. The fuel is the model's own (log 11). -/
def Obligations.SearchFindsTheLeastQuineSeed : Prop :=
  ∀ (s : State) (b0 c0 : Word) (fuel lo : Nat) (hi : Option Nat),
    (∀ seed, search fuel b0 c0 lo hi s = .found seed →
      lo ≤ seed ∧ seed < 2 ^ 64 ∧ (∀ h, hi = some h → seed ≤ h) ∧ DirectQuine s b0 c0 seed ∧
        ∀ x, lo ≤ x → x < seed → ¬ DirectQuine s b0 c0 x) ∧
    (search fuel b0 c0 lo hi s = .notFound →
      ∀ x, lo ≤ x → x < 2 ^ 64 → (∀ h, hi = some h → x ≤ h) → ¬ DirectQuine s b0 c0 x)

/-- R119: a search that ends Fatal stopped at a candidate whose search run ended FAULTED with that record, and every
earlier candidate's run ended without a fault and without success. -/
def Obligations.SearchStopsAtTheFirstFault : Prop :=
  ∀ (s : State) (b0 c0 : Word) (fuel lo : Nat) (hi : Option Nat) (cause : Cause) (info : Word),
    search fuel b0 c0 lo hi s = .fatal cause info →
      ∃ x, lo ≤ x ∧ x < 2 ^ 64 ∧ (∀ h, hi = some h → x ≤ h) ∧
        (∃ t u, hostInit (BitVec.ofNat 64 x) b0 c0 .search s = .next t ∧ EndsIn t u ∧ u.status = .faulted ∧
          u.cause = cause ∧ u.info = info) ∧
        ∀ y, lo ≤ y → y < x →
          ∃ t u, hostInit (BitVec.ofNat 64 y) b0 c0 .search s = .next t ∧ EndsIn t u ∧ u.status ≠ .faulted ∧
            u.succeeded = false

/-- R111, R24: a hardware reset, in any status, leaves the machine IDLE with no record and no result; no step is defined
there (log 5), and the one move after loading a Program of even length is `Init`, which starts the run. -/
def Obligations.HardwareResetLeavesIdle : Prop :=
  ∀ (s : State) (a0 b0 c0 : Word) (m : Mode) (ws : List Word),
    (hardwareReset s).status = .idle ∧ (hardwareReset s).cause = .none ∧ (hardwareReset s).info = 0 ∧
    (hardwareReset s).matched = false ∧ step (hardwareReset s) = .fault (.notRunning .idle) ∧
    (ws.length ≤ 2 ^ 64 - 2 → (∀ k, s.config.pmemWords = some k → ws.length ≤ k) → ws.length % 2 = 0 →
      ∃ t u, hostLoad ws (hardwareReset s) = .next t ∧ hostInit a0 b0 c0 m t = .next u ∧ u.status = .running ∧
        u.program = ws ∧ u.pc = 0)

/-! ### The whole machine -/

/-- `95_test_vectors.md` Part 4: with an unbounded buffer, a step of a RUNNING machine is the reference procedure's step
on the same values as natural numbers, in every state that satisfies the invariant. -/
def Obligations.StepRefinesTheReferenceProcedure : Prop :=
  ∀ s : State, Inv s → s.status = .running → s.config.outCap = none →
    ∃ t, step s = .next t ∧ t.toRef = s.toRef.step s.refProgram (decide (s.mode = .search))
end

