-- ==== Sys2Proof/Laws/State.lean ====
section
/-! SUPPORT. What each named update of the state leaves in each field, one lemma per field, true by unfolding the update. -/

namespace Sys2Proof.Machine.State

/-! ### writeReg -/

@[simp] theorem writeReg_a (s : State) (r : Reg) (v : Word) : (s.writeReg r v).a = if r = .a then v else s.a := rfl
@[simp] theorem writeReg_b (s : State) (r : Reg) (v : Word) : (s.writeReg r v).b = if r = .b then v else s.b := rfl
@[simp] theorem writeReg_c (s : State) (r : Reg) (v : Word) : (s.writeReg r v).c = if r = .c then v else s.c := rfl
@[simp] theorem writeReg_pc (s : State) (r : Reg) (v : Word) : (s.writeReg r v).pc = s.pc := rfl
@[simp] theorem writeReg_out (s : State) (r : Reg) (v : Word) : (s.writeReg r v).out = s.out := rfl
@[simp] theorem writeReg_mode (s : State) (r : Reg) (v : Word) : (s.writeReg r v).mode = s.mode := rfl
@[simp] theorem writeReg_status (s : State) (r : Reg) (v : Word) : (s.writeReg r v).status = s.status := rfl
@[simp] theorem writeReg_cause (s : State) (r : Reg) (v : Word) : (s.writeReg r v).cause = s.cause := rfl
@[simp] theorem writeReg_info (s : State) (r : Reg) (v : Word) : (s.writeReg r v).info = s.info := rfl
@[simp] theorem writeReg_matched (s : State) (r : Reg) (v : Word) : (s.writeReg r v).matched = s.matched := rfl
@[simp] theorem writeReg_program (s : State) (r : Reg) (v : Word) : (s.writeReg r v).program = s.program := rfl
@[simp] theorem writeReg_config (s : State) (r : Reg) (v : Word) : (s.writeReg r v).config = s.config := rfl

/-! ### jump -/

@[simp] theorem jump_a (s : State) (t : Word) : (s.jump t).a = s.a := rfl
@[simp] theorem jump_b (s : State) (t : Word) : (s.jump t).b = s.b := rfl
@[simp] theorem jump_c (s : State) (t : Word) : (s.jump t).c = s.c := rfl
@[simp] theorem jump_pc (s : State) (t : Word) : (s.jump t).pc = t := rfl
@[simp] theorem jump_out (s : State) (t : Word) : (s.jump t).out = s.out := rfl
@[simp] theorem jump_mode (s : State) (t : Word) : (s.jump t).mode = s.mode := rfl
@[simp] theorem jump_status (s : State) (t : Word) : (s.jump t).status = s.status := rfl
@[simp] theorem jump_cause (s : State) (t : Word) : (s.jump t).cause = s.cause := rfl
@[simp] theorem jump_info (s : State) (t : Word) : (s.jump t).info = s.info := rfl
@[simp] theorem jump_matched (s : State) (t : Word) : (s.jump t).matched = s.matched := rfl
@[simp] theorem jump_program (s : State) (t : Word) : (s.jump t).program = s.program := rfl
@[simp] theorem jump_config (s : State) (t : Word) : (s.jump t).config = s.config := rfl

/-! ### advance -/

@[simp] theorem advance_a (s : State) : (s.advance).a = s.a := rfl
@[simp] theorem advance_b (s : State) : (s.advance).b = s.b := rfl
@[simp] theorem advance_c (s : State) : (s.advance).c = s.c := rfl
@[simp] theorem advance_pc (s : State) : (s.advance).pc = s.pc + 2 := rfl
@[simp] theorem advance_out (s : State) : (s.advance).out = s.out := rfl
@[simp] theorem advance_mode (s : State) : (s.advance).mode = s.mode := rfl
@[simp] theorem advance_status (s : State) : (s.advance).status = s.status := rfl
@[simp] theorem advance_cause (s : State) : (s.advance).cause = s.cause := rfl
@[simp] theorem advance_info (s : State) : (s.advance).info = s.info := rfl
@[simp] theorem advance_matched (s : State) : (s.advance).matched = s.matched := rfl
@[simp] theorem advance_program (s : State) : (s.advance).program = s.program := rfl
@[simp] theorem advance_config (s : State) : (s.advance).config = s.config := rfl

/-! ### appendOut -/

@[simp] theorem appendOut_a (s : State) (e : Elem) : (s.appendOut e).a = s.a := rfl
@[simp] theorem appendOut_b (s : State) (e : Elem) : (s.appendOut e).b = s.b := rfl
@[simp] theorem appendOut_c (s : State) (e : Elem) : (s.appendOut e).c = s.c := rfl
@[simp] theorem appendOut_pc (s : State) (e : Elem) : (s.appendOut e).pc = s.pc := rfl
@[simp] theorem appendOut_out (s : State) (e : Elem) : (s.appendOut e).out = s.out ++ [e] := rfl
@[simp] theorem appendOut_mode (s : State) (e : Elem) : (s.appendOut e).mode = s.mode := rfl
@[simp] theorem appendOut_status (s : State) (e : Elem) : (s.appendOut e).status = s.status := rfl
@[simp] theorem appendOut_cause (s : State) (e : Elem) : (s.appendOut e).cause = s.cause := rfl
@[simp] theorem appendOut_info (s : State) (e : Elem) : (s.appendOut e).info = s.info := rfl
@[simp] theorem appendOut_matched (s : State) (e : Elem) : (s.appendOut e).matched = s.matched := rfl
@[simp] theorem appendOut_program (s : State) (e : Elem) : (s.appendOut e).program = s.program := rfl
@[simp] theorem appendOut_config (s : State) (e : Elem) : (s.appendOut e).config = s.config := rfl

/-! ### raise -/

@[simp] theorem raise_a (s : State) (k : Cause) (v : Word) : (s.raise k v).a = s.a := rfl
@[simp] theorem raise_b (s : State) (k : Cause) (v : Word) : (s.raise k v).b = s.b := rfl
@[simp] theorem raise_c (s : State) (k : Cause) (v : Word) : (s.raise k v).c = s.c := rfl
@[simp] theorem raise_pc (s : State) (k : Cause) (v : Word) : (s.raise k v).pc = s.pc := rfl
@[simp] theorem raise_out (s : State) (k : Cause) (v : Word) : (s.raise k v).out = s.out := rfl
@[simp] theorem raise_mode (s : State) (k : Cause) (v : Word) : (s.raise k v).mode = s.mode := rfl
@[simp] theorem raise_status (s : State) (k : Cause) (v : Word) : (s.raise k v).status = .faulted := rfl
@[simp] theorem raise_cause (s : State) (k : Cause) (v : Word) : (s.raise k v).cause = k := rfl
@[simp] theorem raise_info (s : State) (k : Cause) (v : Word) : (s.raise k v).info = v := rfl
@[simp] theorem raise_matched (s : State) (k : Cause) (v : Word) : (s.raise k v).matched = s.matched := rfl
@[simp] theorem raise_program (s : State) (k : Cause) (v : Word) : (s.raise k v).program = s.program := rfl
@[simp] theorem raise_config (s : State) (k : Cause) (v : Word) : (s.raise k v).config = s.config := rfl

/-! ### halt -/

@[simp] theorem halt_a (s : State) : (s.halt).a = s.a := rfl
@[simp] theorem halt_b (s : State) : (s.halt).b = s.b := rfl
@[simp] theorem halt_c (s : State) : (s.halt).c = s.c := rfl
@[simp] theorem halt_pc (s : State) : (s.halt).pc = s.pc := rfl
@[simp] theorem halt_out (s : State) : (s.halt).out = s.out := rfl
@[simp] theorem halt_mode (s : State) : (s.halt).mode = s.mode := rfl
@[simp] theorem halt_status (s : State) : (s.halt).status = .halted := rfl
@[simp] theorem halt_cause (s : State) : (s.halt).cause = s.cause := rfl
@[simp] theorem halt_info (s : State) : (s.halt).info = s.info := rfl
@[simp] theorem halt_matched (s : State) : (s.halt).matched = (decide (s.mode = .search) && s.outIsProgram) := rfl
@[simp] theorem halt_program (s : State) : (s.halt).program = s.program := rfl
@[simp] theorem halt_config (s : State) : (s.halt).config = s.config := rfl

/-! ### abort -/

@[simp] theorem abort_a (s : State) : (s.abort).a = s.a := rfl
@[simp] theorem abort_b (s : State) : (s.abort).b = s.b := rfl
@[simp] theorem abort_c (s : State) : (s.abort).c = s.c := rfl
@[simp] theorem abort_pc (s : State) : (s.abort).pc = s.pc := rfl
@[simp] theorem abort_out (s : State) : (s.abort).out = s.out := rfl
@[simp] theorem abort_mode (s : State) : (s.abort).mode = s.mode := rfl
@[simp] theorem abort_status (s : State) : (s.abort).status = .aborted := rfl
@[simp] theorem abort_cause (s : State) : (s.abort).cause = s.cause := rfl
@[simp] theorem abort_info (s : State) : (s.abort).info = s.info := rfl
@[simp] theorem abort_matched (s : State) : (s.abort).matched = s.matched := rfl
@[simp] theorem abort_program (s : State) : (s.abort).program = s.program := rfl
@[simp] theorem abort_config (s : State) : (s.abort).config = s.config := rfl

/-! ### Views of a state that an update does not touch -/

@[simp] theorem writeReg_plen (s : State) (r : Reg) (v : Word) : (s.writeReg r v).plen = s.plen := rfl
@[simp] theorem writeReg_outWords (s : State) (r : Reg) (v : Word) : (s.writeReg r v).outWords = s.outWords := rfl
@[simp] theorem jump_plen (s : State) (t : Word) : (s.jump t).plen = s.plen := rfl
@[simp] theorem jump_outWords (s : State) (t : Word) : (s.jump t).outWords = s.outWords := rfl
@[simp] theorem advance_plen (s : State) : (s.advance).plen = s.plen := rfl
@[simp] theorem advance_outWords (s : State) : (s.advance).outWords = s.outWords := rfl
@[simp] theorem appendOut_plen (s : State) (e : Elem) : (s.appendOut e).plen = s.plen := rfl
@[simp] theorem appendOut_outWords (s : State) (e : Elem) : (s.appendOut e).outWords = s.outWords ++ [zext64 e] := by
  simp [State.outWords]
@[simp] theorem raise_plen (s : State) (k : Cause) (v : Word) : (s.raise k v).plen = s.plen := rfl
@[simp] theorem raise_outWords (s : State) (k : Cause) (v : Word) : (s.raise k v).outWords = s.outWords := rfl
@[simp] theorem halt_plen (s : State) : (s.halt).plen = s.plen := rfl
@[simp] theorem halt_outWords (s : State) : (s.halt).outWords = s.outWords := rfl
@[simp] theorem abort_plen (s : State) : (s.abort).plen = s.plen := rfl
@[simp] theorem abort_outWords (s : State) : (s.abort).outWords = s.outWords := rfl

/-! ### Registers -/

/-- A write is read back from its own cell and leaves the others (R10). -/
@[simp] theorem readReg_writeReg_same (s : State) (r : Reg) (v : Word) : (s.writeReg r v).readReg r = v := by
  cases r <;> rfl

theorem readReg_writeReg_other {r q : Reg} (h : q ≠ r) (s : State) (v : Word) :
    (s.writeReg r v).readReg q = s.readReg q := by
  cases r <;> cases q <;> first | rfl | exact absurd rfl h

@[simp] theorem jump_readReg (s : State) (t : Word) (r : Reg) : (s.jump t).readReg r = s.readReg r := by
  cases r <;> rfl
@[simp] theorem advance_readReg (s : State) (r : Reg) : (s.advance).readReg r = s.readReg r := by
  cases r <;> rfl
@[simp] theorem appendOut_readReg (s : State) (e : Elem) (r : Reg) : (s.appendOut e).readReg r = s.readReg r := by
  cases r <;> rfl
@[simp] theorem raise_readReg (s : State) (k : Cause) (v : Word) (r : Reg) : (s.raise k v).readReg r = s.readReg r := by
  cases r <;> rfl
@[simp] theorem halt_readReg (s : State) (r : Reg) : (s.halt).readReg r = s.readReg r := by
  cases r <;> rfl
@[simp] theorem abort_readReg (s : State) (r : Reg) : (s.abort).readReg r = s.readReg r := by
  cases r <;> rfl

/-! ### Out against Program -/

/-- `Out = Program` as a fact about lists of words (R19). -/
@[simp] theorem outIsProgram_iff (s : State) : s.outIsProgram = true ↔ s.outWords = s.program := by
  simp [State.outIsProgram]

@[simp] theorem outWords_length (s : State) : s.outWords.length = s.out.length := by
  simp [State.outWords]

/-! ### The outcome of an effect that may fault -/

@[simp] theorem withValue_ok (s : State) (v : Word) (k : Word → Host.Outcome State Fault Refusal) :
    s.withValue (.ok v) k = k v := rfl

@[simp] theorem withValue_error (s : State) (f : FaultRecord) (k : Word → Host.Outcome State Fault Refusal) :
    s.withValue (.error f) k = .next (s.raise f.cause f.info) := rfl

end Sys2Proof.Machine.State
end

