-- ==== Sys2Proof/Laws/Operands.lean ====
section
/-! SUPPORT. What operand resolution and the value functions answer: the combo operand of a word (R63), division by a power
of two (R70) and the low three bits (R74). -/

namespace Sys2Proof.Laws

open Sys2Proof.Machine Sys2Proof.Safety

/-- Resolving the combo operand of a word: the value R63 gives the word, or INVALID_COMBO recording the word. -/
theorem combo_decodeCombo (s : State) (p : Word) :
    s.combo (decodeCombo p) = match comboValue s p with
      | some v => .ok v
      | none => .error { cause := .invalidCombo, info := p } := by
  have h4 : p = 4 ↔ p.toNat = 4 := ⟨fun h => by rw [h]; rfl, fun h => BitVec.eq_of_toNat_eq h⟩
  have h5 : p = 5 ↔ p.toNat = 5 := ⟨fun h => by rw [h]; rfl, fun h => BitVec.eq_of_toNat_eq h⟩
  have h6 : p = 6 ↔ p.toNat = 6 := ⟨fun h => by rw [h]; rfl, fun h => BitVec.eq_of_toNat_eq h⟩
  unfold decodeCombo comboValue
  by_cases h3 : p.toNat ≤ 3
  · simp only [h3, if_true, State.combo]
    congr 1
    apply BitVec.eq_of_toNat_eq
    simp; omega
  · simp only [h3, if_false, h4, h5, h6]
    split_ifs <;> simp [State.combo, State.readReg]

theorem combo_of_value {s : State} {p v : Word} (h : comboValue s p = some v) : s.combo (decodeCombo p) = .ok v := by
  rw [combo_decodeCombo, h]

theorem combo_of_none {s : State} {p : Word} (h : comboValue s p = none) :
    s.combo (decodeCombo p) = .error { cause := .invalidCombo, info := p } := by
  rw [combo_decodeCombo, h]

/-- No value exactly from operand word 7 on (R52). -/
theorem comboValue_eq_none {s : State} {p : Word} : comboValue s p = none ↔ 7 ≤ p.toNat := by
  unfold comboValue
  split_ifs <;> simp <;> omega

/-- The quotient below the shift limit, as a right shift (R70). -/
theorem div2_ok {a k : Word} (h : k.toNat < 64) : div2 a k = .ok (a >>> k.toNat) := by
  simp [div2, shiftLimit, Nat.not_le.mpr h]

/-- The fault from the shift limit on (R70). -/
theorem div2_error {a k : Word} (h : 64 ≤ k.toNat) : div2 a k = .error { cause := .shiftOverflow, info := k } := by
  simp [div2, shiftLimit, h]

/-- The right shift is the truncating quotient, as a number (R70). -/
theorem shiftRight_eq_div (a : Word) (n : Nat) : a >>> n = BitVec.ofNat 64 (a.toNat / 2 ^ n) := by
  apply BitVec.eq_of_toNat_eq
  have hlt : a.toNat / 2 ^ n < 2 ^ 64 := Nat.lt_of_le_of_lt (Nat.div_le_self _ _) a.isLt
  rw [BitVec.toNat_ushiftRight, Nat.shiftRight_eq_div_pow, BitVec.toNat_ofNat, Nat.mod_eq_of_lt hlt]

/-- An element keeps its number as a program word. -/
@[simp] theorem zext64_toNat (e : Elem) : (zext64 e).toNat = e.toNat := by
  have := e.isLt
  simp [zext64]; omega

theorem zext64_injective {d e : Elem} (h : zext64 d = zext64 e) : d = e := by
  apply BitVec.eq_of_toNat_eq
  rw [← zext64_toNat d, h, zext64_toNat]

/-- `v mod 8` (R74). -/
@[simp] theorem low3_toNat (v : Word) : (low3 v).toNat = v.toNat % 8 := by
  simp [low3]

end Sys2Proof.Laws
end

