-- ==== Sys2Proof/Laws/Exec.lean ====
section
/-! SUPPORT. Everything an instruction can do, said once: it answers a next state, which is one of five shapes. Proofs over
all instructions go through `exec_effect` and do not unfold the meanings again. -/

namespace Sys2Proof.Laws

open Sys2Proof.Machine Sys2Proof.Safety

/-- The shapes of a next state. -/
inductive Effect (i : Instr) (s : State) : State → Prop where
  /-- The instruction raised a fault of its own: INVALID_COMBO, SHIFT_OVERFLOW or OUTPUT_OVERFLOW (R92, R96). -/
  | faults (k : Cause) (v : Word) (named : k ≠ .none) : Effect i s (s.raise k v)
  /-- It wrote the one register of its row and advanced (R11, R66). -/
  | writes (r : Reg) (v : Word) (row : writesReg i = some r) : Effect i s (s.writeReg r v).advance
  /-- A taken JNZ (R80). -/
  | jumps (p : Word) (jump : i = .jnz p) (taken : s.a ≠ 0) : Effect i s (s.jump p)
  /-- A JNZ that falls through (R80). -/
  | fallsThrough (p : Word) (jump : i = .jnz p) (untaken : s.a = 0) : Effect i s s.advance
  /-- An EMIT that appended (R83, R84). -/
  | emits (x : Combo) (v : Word) (emit : i = .emit x) (value : s.combo x = .ok v) (room : s.outFull = false) :
    Effect i s (s.emitElem (low3 v))

/-- Going on with a combo value: the fault INVALID_COMBO, or the rest on the value. -/
theorem withValue_combo (s : State) (x : Combo) (k : Word → Host.Outcome State Fault Refusal) :
    (∃ p, s.combo x = .error { cause := .invalidCombo, info := p } ∧
      s.withValue (s.combo x) k = .next (s.raise .invalidCombo p)) ∨
    (∃ v, s.combo x = .ok v ∧ s.withValue (s.combo x) k = k v) := by
  cases x with
  | const n => exact .inr ⟨_, rfl, rfl⟩
  | reg r => exact .inr ⟨_, rfl, rfl⟩
  | reserved p => exact .inl ⟨p, rfl, rfl⟩

/-- What a divide answers (R70 to R73). -/
theorem divideInto_cases (s : State) (rd : Reg) (x : Combo) :
    (∃ p, s.combo x = .error { cause := .invalidCombo, info := p } ∧
      s.divideInto rd x = .next (s.raise .invalidCombo p)) ∨
    (∃ k, s.combo x = .ok k ∧ 64 ≤ k.toNat ∧ s.divideInto rd x = .next (s.raise .shiftOverflow k)) ∨
    (∃ k, s.combo x = .ok k ∧ k.toNat < 64 ∧
      s.divideInto rd x = .next (s.writeReg rd (s.a >>> k.toNat)).advance) := by
  unfold State.divideInto
  obtain ⟨p, hx, h⟩ | ⟨k, hx, h⟩ := withValue_combo s x
    (fun k => s.withValue (div2 s.a k) fun v => .next (s.writeReg rd v).advance)
  · exact .inl ⟨p, hx, h⟩
  · rcases Nat.lt_or_ge k.toNat 64 with hk | hk
    · exact .inr (.inr ⟨k, hx, hk, by rw [h, div2_ok hk]; rfl⟩)
    · exact .inr (.inl ⟨k, hx, hk, by rw [h, div2_error hk]; rfl⟩)

theorem divide_effect {i : Instr} {rd : Reg} (row : writesReg i = some rd) (s : State) (x : Combo) :
    ∃ t, s.divideInto rd x = .next t ∧ Effect i s t := by
  obtain ⟨p, _, h⟩ | ⟨k, _, _, h⟩ | ⟨k, _, _, h⟩ := divideInto_cases s rd x
  · exact ⟨_, h, .faults _ _ (by decide)⟩
  · exact ⟨_, h, .faults _ _ (by decide)⟩
  · exact ⟨_, h, .writes rd _ row⟩

/-- Every instruction answers a next state of one of the five shapes: none faults the model and none is refused. -/
theorem exec_effect (i : Instr) (s : State) : ∃ t, exec i s = .next t ∧ Effect i s t := by
  cases i with
  | diva x => exact divide_effect rfl s x
  | divb x => exact divide_effect rfl s x
  | divc x => exact divide_effect rfl s x
  | xori p => exact ⟨_, rfl, .writes .b _ rfl⟩
  | xorc p => exact ⟨_, rfl, .writes .b _ rfl⟩
  | mod8 x =>
    obtain ⟨p, _, h⟩ | ⟨v, _, h⟩ := withValue_combo s x
      (fun v => .next (s.writeReg .b (zext64 (low3 v))).advance)
    · exact ⟨_, h, .faults _ _ (by decide)⟩
    · exact ⟨_, h, .writes .b _ rfl⟩
  | jnz p =>
    by_cases ha : s.a = 0
    · exact ⟨s.advance, by rw [exec, execJnz, if_neg (by simpa [State.aIsNonzero] using ha)], .fallsThrough p rfl ha⟩
    · exact ⟨s.jump p, by rw [exec, execJnz, if_pos (by simpa [State.aIsNonzero] using ha)], .jumps p rfl ha⟩
  | emit x =>
    obtain ⟨p, _, h⟩ | ⟨v, hx, h⟩ := withValue_combo s x
      (fun v => if s.outFull then .next (s.raise .outputOverflow (BitVec.ofNat 64 s.out.length))
        else .next (s.emitElem (low3 v)))
    · exact ⟨_, h, .faults _ _ (by decide)⟩
    · cases hf : s.outFull with
      | true => exact ⟨_, by rw [exec, execEmit, h, hf]; rfl, .faults _ _ (by decide)⟩
      | false => exact ⟨_, by rw [exec, execEmit, h, hf]; rfl, .emits x v rfl hx hf⟩

/-- The inversion lemma: whatever next state an instruction answers has one of the five shapes. -/
theorem exec_cases {i : Instr} {s t : State} (h : exec i s = .next t) : Effect i s t := by
  obtain ⟨u, hu, he⟩ := exec_effect i s
  rw [hu] at h
  cases h
  exact he

/-! ### EMIT's next state -/

/-- Append, advance and compare as one update: only Out, IP and STATUS can differ (R83, R84). -/
theorem emitElem_eq (s : State) (e : Elem) :
    s.emitElem e = { s with
      out := s.out ++ [e]
      pc := s.pc + 2
      status := if s.mode = .search ∧ ((s.appendOut e).advance).diverges e = true then .aborted else s.status } := by
  unfold State.emitElem State.compare
  rw [State.advance_mode, State.appendOut_mode]
  by_cases hm : s.mode = .search
  · by_cases hd : ((s.appendOut e).advance).diverges e = true
    · rw [if_pos hm, if_pos hd, if_pos ⟨hm, hd⟩]; rfl
    · rw [if_pos hm, if_neg hd, if_neg (fun h => hd h.2)]; rfl
  · rw [if_neg hm, if_neg (fun h => hm h.1)]; rfl

/-- The comparator's test on the appended state: Out is now longer than Program, or `Program[n - 1]` is another word. -/
theorem diverges_append (s : State) (e : Elem) :
    ((s.appendOut e).advance).diverges e = true ↔ s.program.read s.out.length ≠ some (zext64 e) := by
  unfold State.diverges
  by_cases h : s.plen < s.out.length + 1
  · have hnone : s.program.read s.out.length = none := by
      simp [Memory.read, State.plen] at h ⊢; omega
    simp [h, hnone]
  · simp [h]

@[simp] theorem emitElem_a (s : State) (e : Elem) : (s.emitElem e).a = s.a := by rw [emitElem_eq]
@[simp] theorem emitElem_b (s : State) (e : Elem) : (s.emitElem e).b = s.b := by rw [emitElem_eq]
@[simp] theorem emitElem_c (s : State) (e : Elem) : (s.emitElem e).c = s.c := by rw [emitElem_eq]
@[simp] theorem emitElem_pc (s : State) (e : Elem) : (s.emitElem e).pc = s.pc + 2 := by rw [emitElem_eq]
@[simp] theorem emitElem_out (s : State) (e : Elem) : (s.emitElem e).out = s.out ++ [e] := by rw [emitElem_eq]
@[simp] theorem emitElem_mode (s : State) (e : Elem) : (s.emitElem e).mode = s.mode := by rw [emitElem_eq]
@[simp] theorem emitElem_cause (s : State) (e : Elem) : (s.emitElem e).cause = s.cause := by rw [emitElem_eq]
@[simp] theorem emitElem_info (s : State) (e : Elem) : (s.emitElem e).info = s.info := by rw [emitElem_eq]
@[simp] theorem emitElem_matched (s : State) (e : Elem) : (s.emitElem e).matched = s.matched := by rw [emitElem_eq]
@[simp] theorem emitElem_program (s : State) (e : Elem) : (s.emitElem e).program = s.program := by rw [emitElem_eq]
@[simp] theorem emitElem_config (s : State) (e : Elem) : (s.emitElem e).config = s.config := by rw [emitElem_eq]

/-- STATUS after an EMIT that appended: ABORTED in SEARCH where the element is not Program's, else as before (R84). -/
theorem emitElem_status (s : State) (e : Elem) :
    (s.emitElem e).status =
      if s.mode = .search ∧ s.program.read s.out.length ≠ some (zext64 e) then .aborted else s.status := by
  rw [emitElem_eq]
  simp only [diverges_append]

end Sys2Proof.Laws
end

