-- ==== Sys2Proof/Laws/Memory.lean ====
section
/-! SUPPORT. The program memory: what a load and a write leave at each address, and that every memory operation keeps
the form `Memory.wf`. -/

namespace Sys2Proof.Machine

namespace Memory

@[simp] theorem extend_length (m : Memory) (n : Nat) : (m.extend n).length = max m.length n := by
  simp [Memory.extend]; omega

/-- A write of words that lie below PLEN keeps PLEN. -/
theorem write_length {m : Memory} {i : Nat} {ws : List Word} (h : i + ws.length ≤ m.length) :
    (m.write i ws).length = m.length := by
  simp [Memory.write]; omega

/-- Reading below PLEN gives a word; at PLEN and above nothing exists (R31, R39). -/
theorem read_isSome {m : Memory} {i : Nat} : (m.read i).isSome ↔ i < m.length := by
  simp [Memory.read]

theorem read_eq_none {m : Memory} {i : Nat} : m.read i = none ↔ m.length ≤ i := by
  simp [Memory.read]

theorem lt_of_read {m : Memory} {i : Nat} {w : Word} (h : m.read i = some w) : i < m.length :=
  read_isSome.mp (by simp [h])

/-- A read after a write gives the word written there, and the old word at every other index. -/
theorem read_write {m : Memory} {i : Nat} {ws : List Word} (h : i + ws.length ≤ m.length) (j : Nat) :
    (m.write i ws).read j = if i ≤ j ∧ j < i + ws.length then ws[j - i]? else m.read j := by
  have hi : (m.take i).length = i := by simp; omega
  unfold Memory.write Memory.read
  by_cases h1 : j < i
  · rw [if_neg (by omega), List.append_assoc, List.getElem?_append_left (by omega), List.getElem?_take_of_lt h1]
  by_cases h2 : j < i + ws.length
  · rw [if_pos ⟨by omega, h2⟩, List.getElem?_append_left (by simp; omega), List.getElem?_append_right (by omega), hi]
  · rw [if_neg (by omega), List.getElem?_append_right (by simp; omega), List.getElem?_drop]
    congr 1
    simp; omega

/-- After a load the memory is exactly the words loaded (R33, R112). -/
@[simp] theorem load_eq (ws : List Word) : Memory.load ws = ws := by
  simp [Memory.load, Memory.write, Memory.extend]

/-- The bound on PLEN as a number (R31). -/
theorem maxPlen_eq : maxPlen = 2 ^ 64 - 2 := rfl

/-- The form of a program memory, as a fact about PLEN (R31). -/
theorem wf_iff {m : Memory} : m.wf = true ↔ m.length ≤ maxPlen := by
  simp [Memory.wf]

/-- What can be loaded: at most 2^64 - 2 words, and at most PMEM_WORDS (R31). -/
theorem admits_iff {c : Config} {n : Nat} :
    Config.admits c n = true ↔ n ≤ maxPlen ∧ ∀ k, c.pmemWords = some k → n ≤ k := by
  rw [Config.admits, Bool.and_eq_true, decide_eq_true_eq]
  cases c.pmemWords <;> simp

/-! ### Every operation keeps the form -/

theorem wf_write {m : Memory} {i : Nat} {ws : List Word} (h : i + ws.length ≤ m.length) (hm : m.wf = true) :
    (m.write i ws).wf = true := by
  rwa [wf_iff, write_length h, ← wf_iff]

theorem wf_extend {m : Memory} {n : Nat} (hm : m.wf = true) (hn : n ≤ maxPlen) : (m.extend n).wf = true := by
  rw [wf_iff] at hm ⊢
  rw [extend_length]
  omega

theorem wf_load {ws : List Word} (h : ws.length ≤ maxPlen) : (Memory.load ws).wf = true := by
  rwa [load_eq, wf_iff]

end Memory

/-- The memory at power-on has the form. -/
theorem reset_program_wf : State.reset.program.wf = true := by decide

/-- A load that the host is not refused leaves a memory of the form (R31). -/
theorem hostLoad_wf {ws : List Word} {s t : State} (h : hostLoad ws s = .next t) : t.program.wf = true := by
  unfold hostLoad at h
  split at h
  · cases h
  split at h
  · rename_i hadm
    cases h
    exact Memory.wf_load (Memory.admits_iff.mp hadm).1
  · cases h

/-- Where a pair is placed for the next fetch, the fetch finds it. -/
theorem fetch_placePair (s : State) (op p : Word) : (s.placePair op p).fetch = .pair op p := by
  have hlen : s.pc.toNat + [op, p].length ≤ (s.program.extend (s.pc.toNat + 2)).length := by simp
  have hw := Memory.write_length hlen
  have h0 := Memory.read_write hlen s.pc.toNat
  have h1 := Memory.read_write hlen (s.pc.toNat + 1)
  simp only [Memory.extend_length] at hw
  simp at h0 h1
  simp only [State.fetch, State.plen, State.placePair, hw, h0, h1]
  rw [if_neg (by omega), if_neg (by omega)]

/-- `withFetchWord` does what it is for: the very next step is `exec` of the instruction its bits decode to. -/
theorem step_withFetchWord {s : State} {nbits w : Nat} {i : Instr} (h : decodeTableWord nbits w = some i) :
    step (s.withFetchWord nbits w) = exec i (s.withFetchWord nbits w) := by
  have hd : decode (tableWords nbits w).1 (tableWords nbits w).2 = .instr i := by
    unfold decodeTableWord at h
    split at h <;> simp_all
  have hf := fetch_placePair s (tableWords nbits w).1 (tableWords nbits w).2
  simp only [step, State.withFetchWord, State.cycle, hf, hd]
  rw [if_pos (by rfl)]

end Sys2Proof.Machine
end

