-- ==== Sys2Proof/Laws/PerInstr.lean ====
section
/-! SUPPORT. A law about instructions as syntax, one lemma per constructor: the first word of an instruction's pair is the
match word of the opcode-table row that carries its mnemonic (R50, R54). -/

namespace Sys2Proof.Laws.EncodesToItsRow

/-- The opcode word of `i` is the pattern of its row, under that row's mask, and lies in [0,7]. -/
def Statement (i : Instr) : Prop :=
  ∃ row ∈ opcodeTable, row.mnemonic = i.mnemonic ∧ (encode i).1 = row.pattern ∧ row.matches (encode i).1 = true ∧
    (encode i).1.toNat ≤ 7

/-- What every row of the table says of its own pattern. -/
theorem row_pattern : ∀ row ∈ opcodeTable, row.matches row.pattern = true ∧ row.pattern.toNat ≤ 7 := by decide

/-- An instruction with a row's mnemonic and the row's pattern as opcode word satisfies the law. -/
theorem of_row {i : Instr} {row : OpcodeRow} (mem : row ∈ opcodeTable) (name : row.mnemonic = i.mnemonic)
    (word : (encode i).1 = row.pattern) : Statement i :=
  ⟨row, mem, name, word, by rw [word]; exact (row_pattern row mem).1, by rw [word]; exact (row_pattern row mem).2⟩

theorem diva (x : Combo) : Statement (.diva x) := of_row (List.getElem_mem (n := 0) (by decide)) rfl rfl
theorem xori (p : Word) : Statement (.xori p) := of_row (List.getElem_mem (n := 1) (by decide)) rfl rfl
theorem mod8 (x : Combo) : Statement (.mod8 x) := of_row (List.getElem_mem (n := 2) (by decide)) rfl rfl
theorem jnz (p : Word) : Statement (.jnz p) := of_row (List.getElem_mem (n := 3) (by decide)) rfl rfl
theorem xorc (p : Word) : Statement (.xorc p) := of_row (List.getElem_mem (n := 4) (by decide)) rfl rfl
theorem emit (x : Combo) : Statement (.emit x) := of_row (List.getElem_mem (n := 5) (by decide)) rfl rfl
theorem divb (x : Combo) : Statement (.divb x) := of_row (List.getElem_mem (n := 6) (by decide)) rfl rfl
theorem divc (x : Combo) : Statement (.divc x) := of_row (List.getElem_mem (n := 7) (by decide)) rfl rfl

end Sys2Proof.Laws.EncodesToItsRow
end

