-- ==== Sys2Proof/Laws/Step.lean ====
section
/-! SUPPORT. What a fetch finds and everything a step can do, said once. -/

namespace Sys2Proof.Laws

open Sys2Proof.Machine Sys2Proof.Safety

theorem fetch_atEnd {s : State} : s.fetch = .atEnd ↔ s.plen ≤ s.pc.toNat := by
  unfold State.fetch
  split_ifs with h1 h2 <;> simp [h1]
  split <;> simp

theorem fetch_pair {s : State} {op p : Word} : s.fetch = .pair op p ↔
    s.program.read s.pc.toNat = some op ∧ s.program.read (s.pc.toNat + 1) = some p := by
  unfold State.fetch
  split_ifs with h1 h2
  · have hnone : s.program.read s.pc.toNat = none := Memory.read_eq_none.mpr h1
    simp [hnone]
  · have hnone : s.program.read (s.pc.toNat + 1) = none := Memory.read_eq_none.mpr h2
    simp [hnone]
  · split
    · rename_i a b ha hb; simp [ha, hb]
    · rename_i hno
      simp only [reduceCtorEq, false_iff]
      exact fun h => hno _ _ h.1 h.2

theorem fetch_incompletePair {s : State} : s.fetch = .incompletePair ↔ s.pc.toNat + 1 = s.plen := by
  unfold State.fetch State.plen Memory.read
  split_ifs with h1 h2
  · simp; omega
  · simp; omega
  · split
    · simp; omega
    · rename_i hno
      refine absurd ?_ (hno (s.program[s.pc.toNat]'(by omega)) (s.program[s.pc.toNat + 1]'(by omega)) (by simp))
      simp

/-- A step of a RUNNING machine is its cycle (R60). -/
theorem step_running {s : State} (h : s.status = .running) : step s = s.cycle := by simp [step, h]

/-- Only a RUNNING machine steps (R60). -/
theorem running_of_step {s t : State} (h : step s = .next t) : s.status = .running := by
  unfold step at h
  split at h
  · assumption
  · cases h

/-- The shapes of a step: the halt, the two faults of fetch and decode, or an instruction. -/
inductive Cycle (s : State) : State → Prop where
  | halts (atEnd : s.plen ≤ s.pc.toNat) : Cycle s s.halt
  | incomplete (last : s.pc.toNat + 1 = s.plen) : Cycle s (s.raise .incompletePair s.pc)
  | illegal (op p : Word) (opAt : s.program.read s.pc.toNat = some op)
      (pAt : s.program.read (s.pc.toNat + 1) = some p) (bad : decode op p = .illegalOpcode op) :
      Cycle s (s.raise .illegalOpcode op)
  | runs (op p : Word) (i : Instr) (t : State) (opAt : s.program.read s.pc.toNat = some op)
      (pAt : s.program.read (s.pc.toNat + 1) = some p) (dec : decode op p = .instr i) (ex : exec i s = .next t)
      (effect : Effect i s t) : Cycle s t

/-- An illegal opcode is reported with the opcode word itself (R65). -/
theorem decode_illegal {op p w : Word} (h : decode op p = .illegalOpcode w) : w = op := by
  unfold decode at h
  split_ifs at h
  cases h; rfl

/-- A RUNNING machine answers a next state of one of the four shapes. -/
theorem cycle_shape (s : State) : ∃ t, s.cycle = .next t ∧ Cycle s t := by
  unfold State.cycle
  cases hf : s.fetch with
  | atEnd => exact ⟨_, rfl, .halts (fetch_atEnd.mp hf)⟩
  | incompletePair => exact ⟨_, rfl, .incomplete (fetch_incompletePair.mp hf)⟩
  | pair op p =>
    obtain ⟨ho, hp⟩ := fetch_pair.mp hf
    cases hd : decode op p with
    | illegalOpcode w =>
      obtain rfl := decode_illegal hd
      exact ⟨_, by simp only [hd], .illegal w p ho hp hd⟩
    | instr i =>
      obtain ⟨t, ht, he⟩ := exec_effect i s
      exact ⟨t, by simp only [hd, ht], .runs op p i t ho hp hd ht he⟩

/-- The inversion lemma of `step`. -/
theorem step_cases {s t : State} (h : step s = .next t) : s.status = .running ∧ Cycle s t := by
  have hr := running_of_step h
  rw [step_running hr] at h
  obtain ⟨u, hu, hc⟩ := cycle_shape s
  rw [hu] at h
  cases h
  exact ⟨hr, hc⟩

end Sys2Proof.Laws
end

