-- ==== Sys2Proof/Laws/Run.lean ====
section
/-! SUPPORT. Runs: what `Reaches` means in terms of the host's `run`, that it composes, and what the driver's bounded run
answers. -/

namespace Sys2Proof.Laws

open Sys2Proof.Machine Sys2Proof.Safety

theorem Reaches.trans {s t u : State} (h : Reaches s t) (h' : Reaches t u) : Reaches s u := by
  induction h with
  | refl => exact h'
  | head first _ ih => exact .head first (ih h')

/-- `Reaches` is the host's run of some number of steps. -/
theorem reaches_iff_run (s t : State) : Reaches s t ↔ ∃ n, Host.Core.run core n s = .next t := by
  constructor
  · intro h
    induction h with
    | refl s => exact ⟨0, rfl⟩
    | head first _ ih =>
      obtain ⟨n, hn⟩ := ih
      exact ⟨n + 1, by simpa only [Host.Core.run, core, first] using hn⟩
  · rintro ⟨n, hn⟩
    induction n generalizing s with
    | zero => cases hn; exact .refl _
    | succ n ih =>
      simp only [Host.Core.run, core] at hn
      cases hs : step s with
      | next u => rw [hs] at hn; exact .head hs (ih u hn)
      | fault r => rw [hs] at hn; cases hn
      | refused r => rw [hs] at hn; cases hn

/-- Where the driver's bounded run answers a state, the run ends there (R115). -/
theorem endsIn_of_runToEnd {n : Nat} {s t : State} (h : runToEnd n s = some t) : EndsIn s t := by
  induction n generalizing s with
  | zero =>
    unfold runToEnd at h
    split at h
    · cases h; exact ⟨.refl _, ‹_›⟩
    · cases h
  | succ n ih =>
    unfold runToEnd at h
    split at h
    · cases h; exact ⟨.refl _, ‹_›⟩
    · split at h
      · exact ⟨.head ‹_› (ih h).1, (ih h).2⟩
      · cases h
      · cases h

/-- Where one run of the driver answers a state, `Init` began it and it ends there. -/
theorem endsIn_of_runFrom {n : Nat} {a0 b0 c0 : Word} {m : Mode} {s t : State} (h : runFrom n a0 b0 c0 m s = some t) :
    ∃ u, hostInit a0 b0 c0 m s = .next u ∧ EndsIn u t := by
  unfold runFrom at h
  split at h
  · exact ⟨_, ‹_›, endsIn_of_runToEnd h⟩
  · cases h
  · cases h

/-- What `Init` leaves: a fresh run, or the ODD_LENGTH record over it (R110). -/
theorem hostInit_cases {a0 b0 c0 : Word} {m : Mode} {s t : State} (h : hostInit a0 b0 c0 m s = .next t) :
    s.status ≠ .running ∧
      ((s.plen % 2 = 1 ∧ t = (s.fresh a0 b0 c0 m).raise .oddLength (BitVec.ofNat 64 s.plen)) ∨
        (s.plen % 2 = 0 ∧ t = s.fresh a0 b0 c0 m)) := by
  unfold hostInit at h
  split at h
  · cases h
  · rename_i hn
    refine ⟨hn, ?_⟩
    split at h
    · cases h; exact .inl ⟨‹_›, rfl⟩
    · cases h; exact .inr ⟨by omega, rfl⟩

end Sys2Proof.Laws
end

