-- ==== Sys2Proof/Tests/Slice0.lean ====
section
/-! SUPPORT. The model's own tests. Expected results come from the spec: the encoding of `30_encoding.md` and the vectors V,
S and G of `95_test_vectors.md`, named in each comment. Each run test is one step. The witnesses at the end show states and
operands that meet the hypotheses of the statements. -/

namespace Sys2Proof.Tests

open Sys2Proof.Machine Sys2Proof.Safety

/-- A RUNNING machine at IP 0, as `Init` leaves it (R23). -/
def start (ws : List Word) (m : Mode) (a b c : Word) : State :=
  { State.reset with a := a, b := b, c := c, mode := m, status := .running, program := ws }

/-- The state one step later. -/
def after (ws : List Word) (m : Mode) (a b c : Word) : Option State := nextState (step (start ws m a b c))

/-! ### WellFormed: an ill-formed term for each check -/

theorem test_wf_diva : (Instr.diva (.reserved 6)).wf = false := by decide
theorem test_wf_mod8 : (Instr.mod8 (.reserved 3)).wf = false := by decide
theorem test_wf_emit : (Instr.emit (.reserved 0)).wf = false := by decide
theorem test_wf_divb : (Instr.divb (.reserved 4)).wf = false := by decide
theorem test_wf_divc : (Instr.divc (.reserved 5)).wf = false := by decide
theorem test_wf_accepts : (Instr.diva (.reserved 7)).wf = true ∧ (Instr.xori 7).wf = true := by decide

/-! ### Decode: words written out bit by bit from R54's patterns (opcode word, operand word) -/

theorem test_decode_diva : decode
    0b0000000000000000000000000000000000000000000000000000000000000000
    0b0000000000000000000000000000000000000000000000000000000000000010 = .instr (.diva (.const 2)) := by decide
theorem test_decode_xori : decode
    0b0000000000000000000000000000000000000000000000000000000000000001
    0b0000000000000000000000000000000000000000000000000000000000000111 = .instr (.xori 7) := by decide
theorem test_decode_mod8 : decode
    0b0000000000000000000000000000000000000000000000000000000000000010
    0b0000000000000000000000000000000000000000000000000000000000000100 = .instr (.mod8 (.reg .a)) := by decide
theorem test_decode_jnz : decode
    0b0000000000000000000000000000000000000000000000000000000000000011
    0b1000000000000000000000000000000000000000000000000000000000000000 = .instr (.jnz 0x8000000000000000) := by decide
theorem test_decode_xorc : decode
    0b0000000000000000000000000000000000000000000000000000000000000100
    0b0000000000000000000000000000000000000000000000000000000000000111 = .instr (.xorc 7) := by decide
theorem test_decode_emit : decode
    0b0000000000000000000000000000000000000000000000000000000000000101
    0b0000000000000000000000000000000000000000000000000000000000000101 = .instr (.emit (.reg .b)) := by decide
theorem test_decode_divb : decode
    0b0000000000000000000000000000000000000000000000000000000000000110
    0b0000000000000000000000000000000000000000000000000000000000000111 = .instr (.divb (.reserved 7)) := by decide
theorem test_decode_divc : decode
    0b0000000000000000000000000000000000000000000000000000000000000111
    0b0000000000000000000000000000000000000000000000000000000000000110 = .instr (.divc (.reg .c)) := by decide
theorem test_decode_illegal : decode
    0b0000000000000000000000000000000000000000000000000000000000001000
    0b0000000000000000000000000000000000000000000000000000000000000111 = .illegalOpcode 8 := by decide
theorem test_decode_high_bit : decode
    0b1000000000000000000000000000000000000000000000000000000000000000
    0b0000000000000000000000000000000000000000000000000000000000000000 = .illegalOpcode 0x8000000000000000 := by decide

/-! The table's numbering: bit 0 is the least significant bit of the opcode word; an operand word without bits is 0. -/

theorem test_table_word_short : decodeTableWord 64 7 = some (.divc (.const 0)) := by decide
theorem test_table_word_long : decodeTableWord 128 (4 * 2 ^ 64 + 5) = some (.emit (.reg .a)) := by decide
theorem test_table_word_refused : decodeTableWord 64 8 = none := by decide
theorem test_fetch_word_runs_first : (nextState (step (State.reset.withFetchWord 64 5))).map (·.out) = some [0] := by decide
/-- R54's "encoding3" of EMIT A is 101 100. -/
theorem test_encode3 : encode3 (.emit (.reg .a)) = some 0b101100 := by decide

/-! ### The eight instructions, one step each -/

/-- V1 (S1). -/
theorem test_diva : (after [0, 2] .direct 15 0 0).map (fun t => (t.a, t.pc)) = some (3, 2) := by decide
/-- V9: k is compared at full width. -/
theorem test_diva_full_width : (after [0, 6] .direct 18446744073709551615 0 18446744073709551615).map
    (fun t => (t.status, t.cause, t.info, t.pc)) = some (.faulted, .shiftOverflow, 18446744073709551615, 0) := by decide
/-- V26: bit 63 takes part. -/
theorem test_xori : (after [1, 9223372036854775808] .direct 0 1 0).map (·.b) = some 9223372036854775809 := by decide
/-- V24: operand 7 is legal for a literal. -/
theorem test_xori_seven : (after [1, 7] .direct 0 0 0).map (fun t => (t.b, t.status)) = some (7, .running) := by decide
/-- V29. -/
theorem test_mod8 : (after [2, 5] .direct 0 18446744073709551615 0).map (·.b) = some 7 := by decide
/-- V31. -/
theorem test_mod8_invalid : (after [2, 7] .direct 0 1 8).map (fun t => (t.b, t.cause.code, t.info, t.pc))
    = some (1, 4, 7, 0) := by decide
/-- V38, first step: taken to 4, not 6 and not 2. -/
theorem test_jnz_taken : (after [3, 4, 5, 1, 5, 2] .direct 1 0 0).map (·.pc) = some 4 := by decide
/-- V39, first step (S2). -/
theorem test_jnz_falls_through : (after [3, 4, 5, 1, 5, 2] .direct 0 0 0).map (·.pc) = some 2 := by decide
/-- V33. -/
theorem test_xorc : (after [4, 0] .direct 0 6 3).map (fun t => (t.b, t.c)) = some (5, 3) := by decide
/-- V34: operand 7 is harmless. -/
theorem test_xorc_seven : (after [4, 7] .direct 0 6 3).map (fun t => (t.b, t.status)) = some (5, .running) := by decide
/-- V57 (S3). -/
theorem test_emit : (after [5, 4] .direct 18446744073709551615 0 0).map (fun t => (t.out, t.pc)) = some ([7], 2) := by decide
/-- V65: the diverging element is kept and IP has advanced. -/
theorem test_emit_aborts : (after [5, 3] .search 0 0 0).map (fun t => (t.status, t.out, t.pc, t.cause))
    = some (.aborted, [3], 2, .none) := by decide
/-- V14: 15 >> old B. -/
theorem test_divb : (after [6, 5] .direct 15 1 0).map (fun t => (t.a, t.b)) = some (15, 7) := by decide
/-- V16: the low six bits of 2^32 are 0, and it is fatal all the same. -/
theorem test_divb_overflow : (after [6, 5] .direct 15 4294967296 0).map (fun t => (t.b, t.cause, t.info))
    = some (4294967296, .shiftOverflow, 4294967296) := by decide
/-- V18: 2^63 >> old C. -/
theorem test_divc : (after [7, 6] .direct 9223372036854775808 0 3).map (·.c) = some 1152921504606846976 := by decide
/-- V20. -/
theorem test_divc_invalid : (after [7, 7] .direct 1 0 0).map (fun t => (t.status, t.cause.code, t.info))
    = some (.faulted, 4, 7) := by decide

/-! ### Fetch, halt and the host -/

/-- V47. -/
theorem test_empty_program_matches : (after [] .search 1 2 3).map (fun t => (t.status, t.matched)) = some (.halted, true) := by
  decide
/-- V42, second step: no wrap when IP + 1 is tested. -/
theorem test_no_wrap : (nextState (step { start [3, 5, 5, 1] .direct 1 0 0 with pc := 18446744073709551615 })).map
    (fun t => (t.status, t.pc)) = some (.halted, 18446744073709551615) := by decide
/-- V55, second step: INCOMPLETE_PAIR before ILLEGAL_OPCODE. -/
theorem test_incomplete_pair : (nextState (step { start [3, 3, 0, 9] .direct 1 0 0 with pc := 3 })).map
    (fun t => (t.cause.code, t.info, t.pc)) = some (2, 3, 3) := by decide
/-- V53: ILLEGAL_OPCODE before INVALID_COMBO. -/
theorem test_illegal_first : (after [9, 7] .direct 0 0 0).map (fun t => (t.cause.code, t.info)) = some (3, 9) := by decide
/-- V48: ODD_LENGTH at `Init`. -/
theorem test_odd_length : (nextState (hostInit 1 2 3 .direct { State.reset with program := [5, 0, 5] })).map
    (fun t => (t.status, t.cause.code, t.info, t.a, t.out)) = some (.faulted, 1, 3, 1, []) := by decide
/-- R95, with OUT_CAP = 0. -/
theorem test_output_overflow : (nextState (step { start [5, 0] .direct 0 0 0 with config := ⟨some 0, none⟩ })).map
    (fun t => (t.cause.code, t.info, t.out, t.pc)) = some (6, 0, [], 0) := by decide
/-- R55's own example. -/
theorem test_assemble : assemble [.label "loop", .instr (.diva (.const 1)), .instr (.emit (.reg .a)), .jnzTo "loop"]
    = some [0, 1, 5, 4, 3, 0] := by decide
/-- V70: the search of an odd-length Program ends Fatal(1, 3) at its first candidate. -/
theorem test_search_fatal : search 1 0 0 0 none { State.reset with program := [5, 0, 5] } = .fatal .oddLength 3 := by decide
/-- The numbers of R16, R17 and R90. -/
theorem test_codes : [Mode.direct, .search].map Mode.code = [0, 1] ∧
    [Status.idle, .running, .halted, .aborted, .faulted].map Status.code = [0, 1, 2, 3, 4] ∧
    [Cause.none, .oddLength, .incompletePair, .illegalOpcode, .invalidCombo, .shiftOverflow, .outputOverflow].map Cause.code
      = [0, 1, 2, 3, 4, 5, 6] := by decide

/-! ### Witnesses: states and operands that meet the statements' hypotheses -/

/-- A RUNNING machine with an unbounded buffer, a Program that fits and nothing emitted satisfies the invariant. -/
theorem start_inv {ws : List Word} (m : Mode) (a b c : Word) (hl : ws.length ≤ maxPlen) (he : ws.length % 2 = 0) :
    Inv (start ws m a b c) :=
  ⟨Memory.wf_iff.mpr hl, fun _ => he, fun _ => ⟨rfl, rfl⟩, fun h => by simp [start] at h,
   fun h => by simp [start, State.reset] at h, fun h => by simp [start] at h, fun _ _ => ⟨ws, rfl⟩,
   fun n h => by simp [start, State.reset, Config.default] at h⟩

theorem witness_DecodeOfEncode : (Instr.divb (.reserved 7)).wf = true ∧ (Instr.xorc 0xFFFFFFFFFFFFFFFF).wf = true := by
  decide

theorem witness_EncodeOfDecode : decode 5 6 = .instr (.emit (.reg .c)) ∧ decode 7 8 = .instr (.divc (.reserved 8)) := by
  decide

theorem witness_OpcodeTableSelectsTheInstruction :
    decode 7 0 = .instr (.divc (.const 0)) ∧ (∃ row ∈ opcodeTable, row.matches 7 = true) ∧
    ∀ row ∈ opcodeTable, row.matches 8 = false := by decide

theorem witness_EncodedProgramHoldsItsInstructions :
    (∀ j ∈ [Instr.mod8 (.reg .a), .xori 1], j.wf = true) ∧ [Instr.mod8 (.reg .a), .xori 1][1]? = some (.xori 1) := by
  decide

theorem witness_OnlyTheMatrixRegisterIsWritten :
    (∃ t, exec (.diva (.const 2)) (start [] .direct 15 0 0) = .next t) ∧ writesReg (.diva (.const 2)) ≠ some .b ∧
    (start [] .direct 15 0 0).status ≠ .faulted ∧
    ∃ t, exec (.diva (.reserved 7)) (start [] .direct 15 0 0) = .next t ∧ t.status = .faulted :=
  ⟨⟨_, rfl⟩, by decide, by decide, _, rfl, rfl⟩

theorem witness_UnreadRegistersMakeNoDifference : readsReg (.mod8 (.reg .a)) .b = false ∧ readsReg (.jnz 0) .c = false := by
  decide

theorem witness_PointerAdvancesByTwoOrJumps :
    (start [] .direct 1 0 0).status = .running ∧ (start [] .direct 1 0 0).a ≠ 0 ∧ (start [] .direct 0 0 0).a = 0 ∧
    (∃ t, exec (.jnz 5) (start [] .direct 1 0 0) = .next t ∧ t.status ≠ .faulted) ∧
    (∃ t, exec (.jnz 5) (start [] .direct 0 0 0) = .next t ∧ t.status ≠ .faulted) ∧
    ∃ t, exec (.emit (.reserved 7)) (start [] .direct 1 0 0) = .next t ∧ t.status = .faulted :=
  ⟨rfl, by decide, rfl, ⟨_, rfl, by decide⟩, ⟨_, rfl, by decide⟩, _, rfl, rfl⟩

theorem witness_PointerNeverWraps : ∃ t,
    Inv (start [1, 5] .direct 0 0 0) ∧ (start [1, 5] .direct 0 0 0).status = .running ∧
    (start [1, 5] .direct 0 0 0).program.read 0 = some 1 ∧ (start [1, 5] .direct 0 0 0).program.read 1 = some 5 ∧
    step (start [1, 5] .direct 0 0 0) = .next t ∧ t.status ≠ .faulted ∧ ¬((1 : Word) = 3 ∧ (0 : Word) ≠ 0) :=
  ⟨_, start_inv _ _ _ _ (by decide) (by decide), rfl, rfl, rfl, rfl, by decide, by decide⟩

theorem witness_StepRunsTheDecodedInstruction :
    (start [4, 9] .search 0 6 3).status = .running ∧ (start [4, 9] .search 0 6 3).program.read 0 = some 4 ∧
    (start [4, 9] .search 0 6 3).program.read 1 = some 9 ∧ decode 4 9 = .instr (.xorc 9) := by decide

theorem witness_StepHaltsAtOrBeyondPlen :
    (start [] .search 0 0 0).status = .running ∧ (start [] .search 0 0 0).plen ≤ 0 ∧
    (start [] .search 0 0 0).program = [] ∧ (start [] .search 0 0 0).out = [] ∧
    (∃ t, step (start [] .search 0 0 0) = .next t ∧ t.status = .halted) ∧
    (start [1, 0] .direct 0 0 0).plen = ({ start [1, 0] .direct 0 0 0 with pc := 2 } : State).pc.toNat :=
  ⟨rfl, by decide, rfl, rfl, ⟨_, rfl, rfl⟩, rfl⟩

theorem witness_LastIndexTakesIncompletePair :
    let s := { start [3, 3, 0, 9] .direct 1 0 0 with pc := 3 }
    let t := { start [3, 1, 5, 2] .direct 1 0 0 with pc := 1 }
    s.status = .running ∧ s.pc.toNat + 1 = s.plen ∧ s.plen % 2 = 0 ∧
    t.pc.toNat % 2 = 1 ∧ t.program.read 1 = some 1 ∧ t.program.read 2 = some 5 ∧ decode 1 5 = .instr (.xori 5) := by
  decide

theorem witness_OpcodeWordOutsideTableIsIllegal :
    (start [8, 0] .direct 0 0 0).program.read 0 = some 8 ∧ (start [8, 0] .direct 0 0 0).program.read 1 = some 0 ∧
    8 ≤ (8 : Word).toNat ∧ (start [7, 0] .direct 0 0 0).program.read 0 = some 7 ∧ (7 : Word).toNat < 8 := by decide

theorem witness_StepIsStuckUnlessRunning : State.reset.status ≠ .running := by decide

theorem witness_StepTakesTheFirstFaultDue :
    (start [9, 7] .direct 0 0 0).status = .running ∧
    faultDue (start [9, 7] .direct 0 0 0) = some ⟨.illegalOpcode, 9⟩ ∧
    faultDue { start [3, 3, 0, 9] .direct 1 0 0 with pc := 3 } = some ⟨.incompletePair, 3⟩ ∧
    faultDue (start [5, 7] .direct 0 0 0) = some ⟨.invalidCombo, 7⟩ ∧
    faultDue (start [7, 5] .direct 1 64 0) = some ⟨.shiftOverflow, 64⟩ ∧
    faultDue { start [5, 0] .direct 0 0 0 with config := ⟨some 0, none⟩ } = some ⟨.outputOverflow, 0⟩ ∧
    faultDue (start [7, 5] .direct 1 63 0) = none := by decide

theorem witness_JumpToItselfNeverEnds :
    (start [3, 0] .direct 1 0 0).status = .running ∧ (start [3, 0] .direct 1 0 0).a ≠ 0 ∧
    (start [3, 0] .direct 1 0 0).program.read 0 = some 3 ∧ (start [3, 0] .direct 1 0 0).program.read 1 = some 0 := by decide

theorem witness_EvenJumpTargetsKeepPairsWhole :
    (start [3, 0] .direct 1 0 0).plen % 2 = 0 ∧ (start [3, 0] .direct 1 0 0).pc.toNat % 2 = 0 ∧
    (∀ k p, (start [3, 0] .direct 1 0 0).program.read (2 * k) = some 3 →
      (start [3, 0] .direct 1 0 0).program.read (2 * k + 1) = some p → p.toNat % 2 = 0) ∧
    Reaches (start [3, 0] .direct 1 0 0) (start [3, 0] .direct 1 0 0) := by
  refine ⟨rfl, rfl, ?_, .refl _⟩
  rintro (_ | k) p _ h
  · cases h; rfl
  · simp [start, Memory.read] at h

theorem witness_DivisionByPowerOfTwo :
    64 ≤ (64 : Word).toNat ∧ (63 : Word).toNat < 64 ∧ comboValue State.reset 3 = some 3 := by decide

/-- The combo clauses at their borders: k = 63 and 64, operand words 6 and 7. -/
theorem witness_DivaDividesA :
    comboValue (start [] .direct 0 63 0) 5 = some 63 ∧ comboValue (start [] .direct 0 64 0) 5 = some 64 ∧
    comboValue (start [] .direct 0 0 9) 6 = some 9 ∧ comboValue (start [] .direct 0 0 9) 7 = none ∧
    7 ≤ (7 : Word).toNat ∧ (start [] .direct 63 0 0).a.toNat < 64 := by decide

theorem witness_DivbDividesAIntoB :
    comboValue (start [] .direct 63 0 0) 4 = some 63 ∧ comboValue (start [] .direct 64 0 0) 4 = some 64 ∧
    7 ≤ (0xFFFFFFFFFFFFFFFF : Word).toNat := by decide

theorem witness_DivcDividesAIntoC :
    comboValue (start [] .direct 1 0 63) 6 = some 63 ∧ comboValue (start [] .direct 1 0 64) 6 = some 64 ∧
    7 ≤ (8 : Word).toNat := by decide

theorem witness_Mod8LoadsTheLowThreeBits :
    comboValue State.reset 3 = some 3 ∧ comboValue (start [] .direct 8 0 0) 4 = some 8 ∧ 7 ≤ (7 : Word).toNat := by decide

theorem witness_RunningMachineAlwaysSteps : (start [8, 8] .direct 0 0 0).status = .running := by decide

theorem witness_XorcXorsC :
    (start [] .direct 0 6 0).c = 0 ∧ (start [] .direct 0 6 6).b = (start [] .direct 0 6 6).c ∧
    ({ start [3, 3, 0, 4] .direct 1 0 0 with pc := 3 } : State).status = .running ∧
    ({ start [3, 3, 0, 4] .direct 1 0 0 with pc := 3 } : State).program.read 3 = some 4 ∧
    (3 : Word).toNat + 1 = (start [3, 3, 0, 4] .direct 1 0 0).plen := by decide

theorem witness_JnzJumpsWhenAIsNotZero :
    (start [3, 3, 5, 1] .direct 1 0 0).status = .running ∧ (start [3, 3, 5, 1] .direct 1 0 0).a ≠ 0 ∧
    (start [3, 3, 5, 1] .direct 1 0 0).plen ≤ (4 : Word).toNat ∧
    (3 : Word).toNat + 1 = (start [3, 3, 5, 1] .direct 1 0 0).plen ∧
    (2 : Word).toNat + 1 < (start [3, 3, 5, 1] .direct 1 0 0).plen ∧ (start [] .direct 0 0 0).a = 0 := by decide

theorem witness_EmitAppendsToOut :
    comboValue (start [] .search 13 0 0) 4 = some 13 ∧
    (start [] .search 13 0 0).config.outCap ≠ some (start [] .search 13 0 0).out.length ∧
    ({ start [] .direct 0 0 0 with config := ⟨some 0, none⟩ } : State).config.outCap = some 0 := by decide

theorem witness_SearchComparatorAborts :
    (start [] .direct 5 0 0).mode = .direct ∧ comboValue (start [] .direct 5 0 0) 4 = some 5 ∧
    (start [] .direct 5 0 0).config.outCap ≠ some 0 ∧
    (start [] .search 5 0 0).mode = .search ∧ comboValue (start [] .search 5 0 0) 4 = some 5 ∧
    (start [] .search 5 0 0).config.outCap ≠ some 0 ∧ (start [] .search 5 0 0).plen < 0 + 1 ∧
    (start [5, 4] .search 5 0 0).program.read 0 = some 5 ∧ (5 : Word).toNat = (5 : Word).toNat % 8 ∧
    (start [5, 4] .search 6 0 0).program.read 0 = some 5 ∧ (5 : Word).toNat ≠ (6 : Word).toNat % 8 ∧
    (start [8, 4] .search 0 0 0).program.read 0 = some 8 ∧ 8 ≤ (8 : Word).toNat := by decide

theorem witness_OutIsAppendOnly : ∃ t,
    exec (.emit (.const 1)) (start [5, 1] .direct 0 0 0) = .next t ∧ Reaches (start [5, 1] .direct 0 0 0) t :=
  ⟨_, rfl, .head rfl (.refl _)⟩

theorem witness_SearchOutIsAtMostOneTooLong : ∃ t,
    Inv (start [5, 3] .search 0 0 0) ∧ (start [5, 3] .search 0 0 0).status = .running ∧
    (start [5, 3] .search 0 0 0).mode = .search ∧ step (start [5, 3] .search 0 0 0) = .next t :=
  ⟨_, start_inv _ _ _ _ (by decide) (by decide), rfl, rfl, rfl⟩

theorem witness_ModeMattersOnlyToEmit : ∀ x, Instr.jnz 4 ≠ .emit x := by intro x h; cases h

theorem witness_DirectModeNeverCompares : State.reset.mode = .direct ∧ State.reset.status ≠ .aborted := by decide

theorem witness_UnboundedBufferNeverOverflows : ∃ s,
    ({ State.reset with program := [5, 0] } : State).config.outCap = none ∧
    hostInit 0 0 0 .direct { State.reset with program := [5, 0] } = .next s ∧ Reaches s s :=
  ⟨_, rfl, rfl, .refl _⟩

theorem witness_InstructionsLeaveTheRestUnchanged :
    (∃ t, exec (.xori 1) (start [] .direct 0 0 0) = .next t ∧ t.status ≠ .faulted) ∧
    ∃ t, exec (.mod8 (.reserved 8)) (start [] .direct 0 0 0) = .next t ∧ t.status = .faulted ∧
      (start [] .direct 0 0 0).status ≠ .faulted :=
  ⟨⟨_, rfl, by decide⟩, _, rfl, rfl, by decide⟩

theorem witness_ProgramAndModeAreConstantOverARun : ∃ t, Reaches (start [5, 1] .search 0 0 0) t ∧ t.status = .aborted :=
  ⟨_, .head rfl (.refl _), rfl⟩

theorem witness_StepKeepsTheInvariant : ∃ t, Inv (start [5, 5] .search 0 5 0) ∧ step (start [5, 5] .search 0 5 0) = .next t :=
  ⟨_, start_inv _ _ _ _ (by decide) (by decide), rfl⟩

theorem witness_HostMovesKeepTheInvariant : ∃ t u,
    Inv (start [5, 5] .search 0 5 0) ∧ Inv { start [5, 5] .search 0 5 0 with status := .halted } ∧
    hostLoad [0, 1] { start [5, 5] .search 0 5 0 with status := .halted } = .next t ∧
    hostInit 1 2 3 .search { start [5, 5] .search 0 5 0 with status := .halted } = .next u :=
  ⟨_, _, start_inv _ _ _ _ (by decide) (by decide), ⟨by decide, by decide, by decide, by decide, by decide, by decide,
    by decide, fun n h => by simp [start, State.reset, Config.default] at h⟩, rfl, rfl⟩

theorem witness_MatchAtHalt : ∃ t u,
    Inv (start [] .search 0 0 0) ∧ step (start [] .search 0 0 0) = .next t ∧ t.status = .halted ∧ t.mode = .search ∧
    Inv (start [] .direct 0 0 0) ∧ step (start [] .direct 0 0 0) = .next u ∧ u.status = .halted ∧ u.mode = .direct :=
  ⟨_, _, start_inv _ _ _ _ (by decide) (by decide), rfl, rfl, rfl,
    start_inv _ _ _ _ (by decide) (by decide), rfl, rfl, rfl⟩

theorem witness_RunEndsInOneOfFiveWays : ∃ s t,
    hostInit 0 0 0 .search { State.reset with program := [5, 3] } = .next s ∧ EndsIn s t ∧ t.status = .aborted :=
  ⟨_, _, rfl, ⟨.head rfl (.refl _), rfl⟩, rfl⟩

theorem witness_TerminalStatesAreFinal :
    ({ State.reset with status := .faulted } : State).status.terminal = true ∧
    Reaches { State.reset with status := .faulted } { State.reset with status := .faulted } := ⟨rfl, .refl _⟩

theorem witness_ARunHasOneFinalState : ∃ t, EndsIn (start [] .direct 1 2 3) t := ⟨_, .head rfl (.refl _), rfl⟩

theorem witness_InitStartsAFreshRun :
    (start [] .direct 0 0 0).status = .running ∧ State.reset.status ≠ .running ∧ State.reset.plen % 2 = 0 ∧
    ({ State.reset with program := [3] } : State).plen % 2 = 1 ∧
    ({ State.reset with status := .halted, a := 7 } : State).status ≠ .running ∧
    ({ State.reset with status := .halted, a := 7 } : State).program = State.reset.program := by decide

theorem witness_LoadReplacesTheProgram :
    State.reset.status ≠ .running ∧ (start [] .direct 0 0 0).status = .running ∧
    ([0, 1] : List Word).length ≤ 2 ^ 64 - 2 ∧
    (∀ k, State.reset.config.pmemWords = some k → ([0, 1] : List Word).length ≤ k) ∧
    ({ State.reset with config := ⟨none, some 1⟩ } : State).config.pmemWords = some 1 ∧ 1 < ([0, 1] : List Word).length ∧
    2 ^ 64 - 2 < (List.replicate (2 ^ 64 - 1) (0 : Word)).length := by
  refine ⟨by decide, by decide, by decide, fun k h => by simp [State.reset, Config.default] at h, rfl, by decide, ?_⟩
  rw [List.length_replicate]
  decide

theorem witness_ResultsAreReadableAtTheEnd : ∃ r,
    hostRead { State.reset with status := .aborted } = some r := ⟨_, rfl⟩

theorem witness_DirectExecutionReturnsTheFinalState : ∃ r, directRun 1 1 2 3 State.reset = some r := ⟨_, rfl⟩

theorem witness_EarlyAbortChangesNoAnswer : ∃ ss sd t u,
    hostInit 1 2 3 .search State.reset = .next ss ∧ hostInit 1 2 3 .direct State.reset = .next sd ∧
    Reaches ss ss ∧ ss.status = .running ∧ EndsIn ss t ∧ t.status = .halted ∧ t.matched = true ∧
    EndsIn sd u ∧ u.status = .halted ∧ u.outWords = u.program :=
  ⟨_, _, _, _, rfl, rfl, .refl _, rfl, ⟨.head rfl (.refl _), rfl⟩, rfl, rfl, ⟨.head rfl (.refl _), rfl⟩, rfl, rfl⟩

/-- With the empty Program every seed succeeds, so that seed 0 is found; `[5,3]` aborts at its first step, so that the
range 0 to 0 ends NotFound. -/
theorem witness_SearchFindsTheLeastQuineSeed :
    search 1 0 0 0 none State.reset = .found 0 ∧
    search 1 0 0 0 (some 0) { State.reset with program := [5, 3] } = .notFound := by decide

theorem witness_SearchStopsAtTheFirstFault :
    search 1 0 0 4 none { State.reset with program := [5, 0, 5] } = .fatal .oddLength 3 := by decide

theorem witness_HardwareResetLeavesIdle :
    ([5, 3] : List Word).length ≤ 2 ^ 64 - 2 ∧ ([5, 3] : List Word).length % 2 = 0 ∧
    ∀ k, State.reset.config.pmemWords = some k → ([5, 3] : List Word).length ≤ k :=
  ⟨by decide, by decide, fun k h => by simp [State.reset, Config.default] at h⟩

theorem witness_StepRefinesTheReferenceProcedure :
    Inv (start [5, 5] .search 0 5 0) ∧ (start [5, 5] .search 0 5 0).status = .running ∧
    (start [5, 5] .search 0 5 0).config.outCap = none :=
  ⟨start_inv _ _ _ _ (by decide) (by decide), rfl, rfl⟩

end Sys2Proof.Tests
end

section
/-! PROOFS. The scope (`00_scope.md`): a run is a deterministic sequence of steps, so that it has at most one end. -/

namespace Sys2Proof.Proofs

open Sys2Proof.Machine Sys2Proof.Safety Sys2Proof.Laws

/-- No step leaves a terminal status (R98): only a RUNNING machine steps. -/
theorem step_ne_next_of_terminal {s : State} (hs : s.status.terminal = true) (t : State) : step s ≠ .next t := by
  intro h
  rw [running_of_step h] at hs
  exact absurd hs (by decide)

/-- A run from a terminal state is over where it begins (R17, R98). -/
theorem reaches_eq_of_terminal {s t : State} (hs : s.status.terminal = true) (h : Reaches s t) : t = s := by
  cases h with
  | refl => rfl
  | head first _ => exact absurd first (step_ne_next_of_terminal hs _)

/-- `step` is a function, so that the states of a run lie on one path: whatever the run reaches lies before its final
state. -/
theorem endsIn_of_reaches {s t u : State} (ht : Reaches s t) (hu : EndsIn s u) : EndsIn t u := by
  induction ht with
  | refl => exact hu
  | head first _ ih =>
    obtain ⟨path, hterm⟩ := hu
    cases path with
    | refl => exact absurd first (step_ne_next_of_terminal hterm _)
    | head first' rest' =>
      obtain rfl := Host.Outcome.next.inj (first.symm.trans first')
      exact ih ⟨rest', hterm⟩

/-- Settles O44: the second final state is reached from the first, which no step leaves. -/
theorem aRunHasOneFinalState : Obligations.ARunHasOneFinalState := by
  rintro s t u ⟨ht, hterm⟩ hu
  obtain ⟨htu, -⟩ := endsIn_of_reaches ht hu
  exact (reaches_eq_of_terminal hterm htu).symm

end Sys2Proof.Proofs
end

section
/-! PROOFS. The state (`10_state.md`): what an instruction leaves unchanged (R11, R13, R14, R16, R21), what makes no
difference to it, what holds all along a run, and the invariant, which every step keeps. -/

namespace Sys2Proof.Proofs

open Sys2Proof.Machine Sys2Proof.Safety Sys2Proof.Laws

/-! ### State operations: registers, and EMIT's views -/

theorem readReg_writeReg (s : State) (r q : Reg) (v : Word) :
    (s.writeReg r v).readReg q = if q = r then v else s.readReg q := by
  split_ifs with h
  · rw [h, State.readReg_writeReg_same]
  · exact State.readReg_writeReg_other h s v

/-- The second write to a cell is the one that counts. -/
theorem writeReg_writeReg_same (s : State) (r : Reg) (v w : Word) : (s.writeReg r v).writeReg r w = s.writeReg r w := by
  cases r <;> rfl

/-- Writes to two cells do not see each other (R10). -/
theorem writeReg_comm {r q : Reg} (h : q ≠ r) (s : State) (v w : Word) :
    (s.writeReg r v).writeReg q w = (s.writeReg q w).writeReg r v := by
  cases r <;> cases q
  case a.a | b.b | c.c => contradiction
  all_goals rfl

@[simp] theorem emitElem_readReg (s : State) (e : Elem) (r : Reg) : (s.emitElem e).readReg r = s.readReg r := by
  cases r <;> simp [State.readReg]

@[simp] theorem emitElem_plen (s : State) (e : Elem) : (s.emitElem e).plen = s.plen := by simp [State.plen]

@[simp] theorem emitElem_outWords (s : State) (e : Elem) : (s.emitElem e).outWords = s.outWords ++ [zext64 e] := by
  simp [State.outWords]

/-- EMIT's update and its comparator look at no register. -/
theorem emitElem_writeReg (s : State) (e : Elem) (r : Reg) (v : Word) :
    (s.writeReg r v).emitElem e = (s.emitElem e).writeReg r v := by
  rw [emitElem_eq, emitElem_eq]
  rfl

/-- A combo operand reads the register it selects and no other part of the state (R63). -/
theorem combo_congr {s s' : State} {x : Combo} (h : ∀ r, x = .reg r → s'.readReg r = s.readReg r) :
    s'.combo x = s.combo x := by
  cases x with
  | const n => rfl
  | reg r => exact congrArg Except.ok (h r rfl)
  | reserved p => rfl

/-- Settles O7: the rules of register reads and writes, and the three operand words decoded. -/
theorem registersAreThreeDistinctCells : Obligations.RegistersAreThreeDistinctCells := by
  intro s r q v
  exact ⟨readReg_writeReg s r q v, rfl, rfl, rfl, rfl, rfl, rfl, rfl⟩

/-! ### The frame of an instruction -/

/-- No shape of an effect touches the Program, MODE, the parameters or MATCH. -/
theorem effect_frame {i : Instr} {s t : State} (h : Effect i s t) :
    t.program = s.program ∧ t.mode = s.mode ∧ t.config = s.config ∧ t.matched = s.matched := by
  cases h <;> simp

/-- An effect is a fault taken on the state before, or it keeps the fault record, and STATUS but for an abort. -/
theorem effect_faults_or_keeps_record {i : Instr} {s t : State} (h : Effect i s t) :
    (∃ k v, t = s.raise k v) ∨
      ((t.status = s.status ∨ t.status = .aborted) ∧ t.cause = s.cause ∧ t.info = s.info) := by
  cases h with
  | faults k v _ => exact .inl ⟨k, v, rfl⟩
  | writes | jumps | fallsThrough => exact .inr ⟨.inl rfl, rfl, rfl⟩
  | emits x v _ _ _ =>
    refine .inr ⟨?_, by simp, by simp⟩
    rw [emitElem_status]
    split_ifs
    · exact .inr rfl
    · exact .inl rfl

/-- An instruction that ends FAULTED took its fault on the state before it (R96). -/
theorem eq_raise_of_faulted {i : Instr} {s t : State} (h : Effect i s t) (hs : s.status ≠ .faulted)
    (ht : t.status = .faulted) : ∃ k v, t = s.raise k v := by
  obtain hf | ⟨hst | hst, -, -⟩ := effect_faults_or_keeps_record h
  · exact hf
  · exact absurd (hst.symm.trans ht) hs
  · rw [hst] at ht; cases ht

/-- The fault record changes only where an instruction ends FAULTED (R18). -/
theorem record_of_not_faulted {i : Instr} {s t : State} (h : Effect i s t) (ht : t.status ≠ .faulted) :
    t.cause = s.cause ∧ t.info = s.info := by
  obtain ⟨k, v, rfl⟩ | ⟨-, hrec⟩ := effect_faults_or_keeps_record h
  · exact absurd rfl ht
  · exact hrec

/-- No instruction halts a machine. -/
theorem status_ne_halted {i : Instr} {s t : State} (h : Effect i s t) (hs : s.status ≠ .halted) :
    t.status ≠ .halted := by
  obtain ⟨k, v, rfl⟩ | ⟨hst | hst, -, -⟩ := effect_faults_or_keeps_record h
  · simp
  · rwa [hst]
  · simp [hst]

/-- Settles O36: what the frame of an effect and its fault record say, of the next state that every instruction answers. -/
theorem instructionsLeaveTheRestUnchanged : Obligations.InstructionsLeaveTheRestUnchanged := by
  intro i s
  obtain ⟨t, ht, he⟩ := exec_effect i s
  obtain ⟨hprog, hmode, hconf, hmatch⟩ := effect_frame he
  refine ⟨t, ht, fun n => by rw [hprog], congrArg List.length hprog, hmode, hconf, hmatch,
    record_of_not_faulted he, fun hs hf => ?_⟩
  obtain ⟨k, v, rfl⟩ := eq_raise_of_faulted he hs hf
  exact ⟨rfl, rfl⟩

/-- Settles O8: of the five shapes only the write touches a register, the one of the row. -/
theorem onlyTheMatrixRegisterIsWritten : Obligations.OnlyTheMatrixRegisterIsWritten := by
  intro i s t h
  have he := exec_cases h
  constructor
  · intro r hr
    cases he with
    | writes q v row =>
      have hne : r ≠ q := fun heq => hr (heq ▸ row)
      rw [State.advance_readReg, State.readReg_writeReg_other hne]
    | faults | jumps | fallsThrough | emits => simp
  · intro hs hf r
    obtain ⟨k, v, rfl⟩ := eq_raise_of_faulted he hs hf
    exact State.raise_readReg s k v r

/-- Settles O10: IP after each of the five shapes. -/
theorem pointerAdvancesByTwoOrJumps : Obligations.PointerAdvancesByTwoOrJumps := by
  intro i s t hs h
  have he := exec_cases h
  constructor
  · intro hf
    obtain ⟨k, v, rfl⟩ := eq_raise_of_faulted he (by simp [hs]) hf
    rfl
  · intro hf
    cases he with
    | faults k v _ => exact absurd rfl hf
    | writes r v row => exact ⟨fun p hi _ => by simp [hi, writesReg] at row, fun _ => rfl⟩
    | jumps p hi taken =>
      exact ⟨fun q hq _ => Instr.jnz.inj (hi.symm.trans hq), fun hz => absurd (hz p hi) taken⟩
    | fallsThrough p _ untaken => exact ⟨fun _ _ ha => absurd untaken ha, fun _ => rfl⟩
    | emits x v hi _ _ => exact ⟨fun p hp _ => by simp [hi] at hp, fun _ => emitElem_pc s _⟩

/-! ### What makes no difference to an instruction -/

/-- Both outcomes are next states, and the two states are related. -/
def RelatedNext (P : State → State → Prop) (o o' : Host.Outcome State Fault Refusal) : Prop :=
  ∃ t t', o = .next t ∧ o' = .next t' ∧ P t t'

/-- Two states look alike to an instruction: they agree in the registers its row of R11's matrix reads and, for EMIT, in
Out and its capacity; and `P` relates what each update that the instruction may make leaves of the two. -/
structure Alike (P : State → State → Prop) (i : Instr) (s s' : State) : Prop where
  reads : ∀ r, readsReg i r = true → s'.readReg r = s.readReg r
  faults : ∀ k v, P (s.raise k v) (s'.raise k v)
  writes : ∀ r v, writesReg i = some r → P (s.writeReg r v).advance (s'.writeReg r v).advance
  jumps : ∀ p, P (s.jump p) (s'.jump p)
  advances : P s.advance s'.advance
  buffer : ∀ x, i = .emit x → s'.out = s.out ∧ s'.config = s.config
  emits : ∀ x e, i = .emit x → P (s.emitElem e) (s'.emitElem e)

/-- Going on with the same value, or taking the same fault, in two states. -/
theorem withValue_related {P : State → State → Prop} {s s' : State} {r r' : Except FaultRecord Word}
    {k k' : Word → Host.Outcome State Fault Refusal} (same : r' = r) (faults : ∀ c v, P (s.raise c v) (s'.raise c v))
    (next : ∀ v, RelatedNext P (k v) (k' v)) : RelatedNext P (s.withValue r k) (s'.withValue r' k') := by
  subst same
  cases r' with
  | error f => exact ⟨_, _, rfl, rfl, faults f.cause f.info⟩
  | ok v => exact next v

theorem divideInto_related {P : State → State → Prop} {i : Instr} {s s' : State} {rd : Reg} {x : Combo}
    (h : Alike P i s s') (row : writesReg i = some rd) (readsA : readsReg i .a = true)
    (readsX : ∀ r, x = .reg r → readsReg i r = true) :
    RelatedNext P (s.divideInto rd x) (s'.divideInto rd x) := by
  have ha : s'.a = s.a := h.reads .a readsA
  refine withValue_related (combo_congr fun r hr => h.reads r (readsX r hr)) h.faults fun k => ?_
  exact withValue_related (by rw [ha]) h.faults fun v => ⟨_, _, rfl, rfl, h.writes rd v row⟩

/-- An instruction does the same in two states that look alike to it. -/
theorem exec_related {P : State → State → Prop} {i : Instr} {s s' : State} (h : Alike P i s s') :
    RelatedNext P (exec i s) (exec i s') := by
  cases i with
  | diva x => exact divideInto_related h rfl (by simp [readsReg]) fun r hr => by simp [readsReg, hr]
  | divb x => exact divideInto_related h rfl (by simp [readsReg]) fun r hr => by simp [readsReg, hr]
  | divc x => exact divideInto_related h rfl (by simp [readsReg]) fun r hr => by simp [readsReg, hr]
  | xori p =>
    have hb : s'.b = s.b := h.reads .b rfl
    refine ⟨_, _, rfl, rfl, ?_⟩
    rw [hb]
    exact h.writes .b _ rfl
  | xorc p =>
    have hb : s'.b = s.b := h.reads .b rfl
    have hc : s'.c = s.c := h.reads .c rfl
    refine ⟨_, _, rfl, rfl, ?_⟩
    rw [hb, hc]
    exact h.writes .b _ rfl
  | mod8 x =>
    exact withValue_related (combo_congr fun r hr => h.reads r (by simp [readsReg, hr])) h.faults
      fun v => ⟨_, _, rfl, rfl, h.writes .b _ rfl⟩
  | jnz p =>
    have ha : s'.aIsNonzero = s.aIsNonzero := congrArg (fun a : Word => decide (a ≠ 0)) (h.reads .a rfl)
    refine ⟨_, _, rfl, rfl, ?_⟩
    rw [ha]
    split_ifs
    · exact h.jumps p
    · exact h.advances
  | emit x =>
    refine withValue_related (combo_congr fun r hr => h.reads r (by simp [readsReg, hr])) h.faults fun v => ?_
    obtain ⟨hout, hconf⟩ := h.buffer x rfl
    have hfull : s'.outFull = s.outFull := by simp only [State.outFull, hout, hconf]
    rw [hfull, hout]
    split_ifs
    · exact ⟨_, _, rfl, rfl, h.faults _ _⟩
    · exact ⟨_, _, rfl, rfl, h.emits x _ rfl⟩

/-- The two states differ in a register alone, or the instruction has overwritten that register. -/
def DifferInReg (i : Instr) (r : Reg) (v : Word) (t t' : State) : Prop :=
  t' = t.writeReg r v ∨ (writesReg i = some r ∧ t' = t)

theorem writeReg_alike {i : Instr} {r : Reg} (v : Word) (s : State) (unread : readsReg i r = false) :
    Alike (DifferInReg i r v) i s (s.writeReg r v) where
  reads q hq := State.readReg_writeReg_other (by rintro rfl; simp [unread] at hq) s v
  faults _ _ := .inl rfl
  writes q w row := by
    by_cases hqr : q = r
    · subst hqr
      exact .inr ⟨row, by rw [writeReg_writeReg_same]⟩
    · exact .inl (congrArg State.advance (writeReg_comm hqr s v w))
  jumps _ := .inl rfl
  advances := .inl rfl
  buffer _ _ := ⟨rfl, rfl⟩
  emits _ e _ := .inl (emitElem_writeReg s e r v)

/-- Settles O9: with another value in an unread register the state looks alike to the instruction. -/
theorem unreadRegistersMakeNoDifference : Obligations.UnreadRegistersMakeNoDifference :=
  fun _ _ v s unread => exec_related (writeReg_alike v s unread)

theorem withMode_alike {i : Instr} (m : Mode) (s : State) (notEmit : ∀ x, i ≠ .emit x) :
    Alike (fun t t' => t' = { t with mode := m }) i s { s with mode := m } where
  reads r _ := by cases r <;> rfl
  faults _ _ := rfl
  writes _ _ _ := rfl
  jumps _ := rfl
  advances := rfl
  buffer x hx := absurd hx (notEmit x)
  emits x _ hx := absurd hx (notEmit x)

/-- Settles O33: with another MODE the state looks alike to an instruction that is no EMIT. -/
theorem modeMattersOnlyToEmit : Obligations.ModeMattersOnlyToEmit := by
  intro i m s notEmit
  obtain ⟨t, t', ht, ht', rfl⟩ := exec_related (withMode_alike m s notEmit)
  exact ⟨t, ht, ht'⟩

/-! ### What holds all along a run -/

/-- What every step keeps holds of every state a run reaches. -/
theorem reaches_keeps {P : State → Prop} (keeps : ∀ s t, P s → step s = .next t → P t) {s t : State}
    (h : Reaches s t) (hs : P s) : P t := by
  induction h with
  | refl => exact hs
  | head first _ ih => exact ih (keeps _ _ hs first)

/-- No step touches the Program, MODE or the parameters. -/
theorem step_frame {s t : State} (h : step s = .next t) :
    t.program = s.program ∧ t.mode = s.mode ∧ t.config = s.config := by
  obtain ⟨-, hc⟩ := step_cases h
  cases hc with
  | halts | incomplete | illegal => simp
  | runs op p i t _ _ _ _ he =>
    obtain ⟨hprog, hmode, hconf, -⟩ := effect_frame he
    exact ⟨hprog, hmode, hconf⟩

/-- Settles O37: along the run, by the frame of one step. -/
theorem programAndModeAreConstantOverARun : Obligations.ProgramAndModeAreConstantOverARun := by
  intro s t h
  refine reaches_keeps (P := fun u => u.program = s.program ∧ u.mode = s.mode ∧ u.config = s.config)
    (fun u w hu hw => ?_) h ⟨rfl, rfl, rfl⟩
  obtain ⟨hprog, hmode, hconf⟩ := step_frame hw
  rwa [hprog, hmode, hconf]

/-- An instruction leaves Out, or is an EMIT that adds one element (R83). -/
theorem effect_out {i : Instr} {s t : State} (h : Effect i s t) :
    t.out = s.out ∨ ∃ x e, i = .emit x ∧ t.out = s.out ++ [e] := by
  cases h with
  | faults | writes | jumps | fallsThrough => exact .inl rfl
  | emits x v hi _ _ => exact .inr ⟨x, _, hi, emitElem_out s _⟩

theorem step_out {s t : State} (h : step s = .next t) : t.out = s.out ∨ ∃ e, t.out = s.out ++ [e] := by
  obtain ⟨-, hc⟩ := step_cases h
  cases hc with
  | halts | incomplete | illegal => exact .inl rfl
  | runs op p i t _ _ _ _ he => exact (effect_out he).imp_right fun ⟨_, e, _, ho⟩ => ⟨e, ho⟩

/-- Settles O31: each step leaves the earlier Out as a beginning, and so does a run. -/
theorem outIsAppendOnly : Obligations.OutIsAppendOnly := by
  refine ⟨fun i s t h => effect_out (exec_cases h), fun s t h => ?_⟩
  refine reaches_keeps (P := fun u => s.out <+: u.out) (fun u w hu hw => hu.trans ?_) h List.prefix_rfl
  obtain ho | ⟨e, ho⟩ := step_out hw
  · rw [ho]
  · rw [ho]
    exact List.prefix_append _ _

/-! ### Even pointers -/

/-- Only opcode 3 decodes to a JNZ, whose literal is the operand word (R64, R80). -/
theorem decode_jnz {op p q : Word} (h : decode op p = .instr (.jnz q)) : op = 3 ∧ p = q := by
  unfold decode at h
  split_ifs at h
  all_goals cases h
  exact ⟨‹_›, rfl⟩

/-- The JNZ pairs at even indices have even targets. -/
def EvenTargets (m : Memory) : Prop :=
  ∀ k p, m.read (2 * k) = some 3 → m.read (2 * k + 1) = some p → p.toNat % 2 = 0

/-- Adding 2 keeps the parity of a pointer, where it wraps too. -/
theorem add_two_parity (w : Word) : (w + 2).toNat % 2 = w.toNat % 2 := by
  bv_omega

/-- An instruction fetched at an even pointer leaves the pointer even: it stays, moves by 2, or is the even target. -/
theorem effect_pc_even {s t : State} {op p : Word} {i : Instr} (targets : EvenTargets s.program)
    (even : s.pc.toNat % 2 = 0) (opAt : s.program.read s.pc.toNat = some op)
    (pAt : s.program.read (s.pc.toNat + 1) = some p) (dec : decode op p = .instr i) (h : Effect i s t) :
    t.pc.toNat % 2 = 0 := by
  cases h with
  | faults => exact even
  | writes | fallsThrough => exact (add_two_parity s.pc).trans even
  | emits x v _ _ _ => rw [emitElem_pc, add_two_parity, even]
  | jumps q hi _ =>
    subst hi
    obtain ⟨rfl, rfl⟩ := decode_jnz dec
    have hk : s.pc.toNat = 2 * (s.pc.toNat / 2) := by omega
    rw [hk] at opAt pAt
    exact targets _ p opAt pAt

theorem step_pc_even {s t : State} (targets : EvenTargets s.program) (even : s.pc.toNat % 2 = 0)
    (h : step s = .next t) : t.pc.toNat % 2 = 0 := by
  obtain ⟨-, hc⟩ := step_cases h
  cases hc with
  | halts | incomplete | illegal => exact even
  | runs op p i t opAt pAt dec _ he => exact effect_pc_even targets even opAt pAt dec he

/-- Settles O20: an even pointer stays even all along the run, and below an even PLEN it has a word after it. -/
theorem evenJumpTargetsKeepPairsWhole : Obligations.EvenJumpTargetsKeepPairsWhole := by
  intro s t hlen even targets h
  obtain ⟨hprog, hpc⟩ := reaches_keeps (P := fun u => u.program = s.program ∧ u.pc.toNat % 2 = 0)
    (fun u w ⟨hu, hpc⟩ hw => ⟨(step_frame hw).1.trans hu, step_pc_even (hu ▸ targets) hpc hw⟩) h ⟨rfl, even⟩
  have hplen : t.plen = s.plen := congrArg List.length hprog
  exact ⟨hpc, by omega⟩

/-! ### The invariant -/

/-- Settles O38: at power-on there is no Program and no output, no record, and STATUS is IDLE. -/
theorem invariantHoldsAtReset : Obligations.InvariantHoldsAtReset where
  plen_fits := reset_program_wf
  plen_even h := by cases h
  no_record _ := ⟨rfl, rfl⟩
  has_record h := by cases h
  match_halted h := by cases h
  aborted_search h := by cases h
  search_agrees h := by cases h
  within_cap _ h := by cases h

/-- The invariant speaks of no register and not of IP. -/
theorem inv_withRegisters {s : State} (hs : Inv s) (a b c pc : Word) :
    Inv { s with a := a, b := b, c := c, pc := pc } :=
  ⟨hs.plen_fits, hs.plen_even, hs.no_record, hs.has_record, hs.match_halted, hs.aborted_search, hs.search_agrees,
    hs.within_cap⟩

/-- MATCH is 0 all through a run (R19). -/
theorem matched_of_running {s : State} (hs : Inv s) (hr : s.status = .running) : s.matched ≠ true := by
  intro hm
  have hh := (hs.match_halted hm).1
  rw [hr] at hh
  cases hh

/-- While RUNNING there is no fault record (R18). -/
theorem record_of_running {s : State} (hs : Inv s) (hr : s.status = .running) : s.cause = .none ∧ s.info = 0 :=
  hs.no_record (by simp [hr])

/-- A run that takes a named fault keeps the invariant. -/
theorem inv_raise {s : State} (hs : Inv s) (hr : s.status = .running) {k : Cause} (named : k ≠ .none) (v : Word) :
    Inv (s.raise k v) where
  plen_fits := hs.plen_fits
  plen_even h := by cases h
  no_record h := absurd rfl h
  has_record _ := named
  match_halted h := absurd h (matched_of_running (s := s) hs hr)
  aborted_search h := by cases h
  search_agrees h := by cases h
  within_cap := hs.within_cap

/-- A run that halts keeps the invariant: MATCH is set in SEARCH alone. -/
theorem inv_halt {s : State} (hs : Inv s) (hr : s.status = .running) : Inv s.halt where
  plen_fits := hs.plen_fits
  plen_even h := by cases h
  no_record _ := record_of_running (s := s) hs hr
  has_record h := by cases h
  match_halted h := by
    rw [State.halt_matched, Bool.and_eq_true, decide_eq_true_eq] at h
    exact ⟨rfl, h.1⟩
  aborted_search h := by cases h
  search_agrees h := by cases h
  within_cap := hs.within_cap

/-- A beginning of a list goes on as a beginning with the list's next element. -/
theorem prefix_append_getElem? {α : Type} {l m : List α} {w : α} (h : l <+: m) (hw : m[l.length]? = some w) :
    l ++ [w] <+: m := by
  obtain ⟨hl, rfl⟩ := List.getElem?_eq_some_iff.mp hw
  exact List.concat_get_prefix h hl

/-- An EMIT that appends leaves STATUS, or aborts a run in SEARCH whose Program does not go on with the element. -/
theorem emitElem_status_cases (s : State) (e : Elem) :
    ((s.emitElem e).status = .aborted ∧ s.mode = .search) ∨
      ((s.emitElem e).status = s.status ∧ (s.mode = .search → s.program.read s.out.length = some (zext64 e))) := by
  rw [emitElem_status]
  split_ifs with h
  · exact .inl ⟨rfl, h.1⟩
  · exact .inr ⟨rfl, fun hm => by_contra fun hne => h ⟨hm, hne⟩⟩

/-- A run that appends keeps the invariant: where it goes on in SEARCH the comparator has found Program's next word
(R22, R85), and there was room for the element (R95). -/
theorem inv_emitElem {s : State} (hs : Inv s) (hr : s.status = .running) (room : s.outFull = false) (e : Elem) :
    Inv (s.emitElem e) where
  plen_fits := by simpa using hs.plen_fits
  plen_even _ := by simpa using hs.plen_even hr
  no_record _ := by simpa using record_of_running hs hr
  has_record h := by
    obtain ⟨hst, -⟩ | ⟨hst, -⟩ := emitElem_status_cases s e <;> simp [hst, hr] at h
  match_halted h := absurd (by simpa using h) (matched_of_running hs hr)
  aborted_search h := by
    obtain ⟨-, hm⟩ | ⟨hst, -⟩ := emitElem_status_cases s e
    · simpa using hm
    · rw [hst, hr] at h
      cases h
  search_agrees h hm := by
    rw [emitElem_mode] at hm
    obtain ⟨hst, -⟩ | ⟨-, next⟩ := emitElem_status_cases s e
    · rw [hst] at h
      cases h
    · rw [emitElem_outWords, emitElem_program]
      exact prefix_append_getElem? (hs.search_agrees hr hm) (by rw [State.outWords_length]; exact next hm)
  within_cap n hn := by
    rw [emitElem_config] at hn
    have hle := hs.within_cap n hn
    have hne : n ≠ s.out.length := by simpa [State.outFull, hn] using room
    rw [emitElem_out, List.length_append, List.length_singleton]
    omega

/-- A running machine's instruction keeps the invariant. -/
theorem inv_effect {i : Instr} {s t : State} (hs : Inv s) (hr : s.status = .running) (h : Effect i s t) : Inv t := by
  cases h with
  | faults k v named => exact inv_raise hs hr named v
  | writes r v _ => exact inv_withRegisters hs _ _ _ _
  | jumps p _ _ => exact inv_withRegisters hs _ _ _ p
  | fallsThrough p _ _ => exact inv_withRegisters hs _ _ _ _
  | emits x v _ _ room => exact inv_emitElem hs hr room _

/-- Settles O39: each of the four shapes of a step keeps the invariant. -/
theorem stepKeepsTheInvariant : Obligations.StepKeepsTheInvariant := by
  intro s t hs h
  obtain ⟨hr, hc⟩ := step_cases h
  cases hc with
  | halts => exact inv_halt hs hr
  | incomplete => exact inv_raise hs hr (by decide) _
  | illegal => exact inv_raise hs hr (by decide) _
  | runs op p i t _ _ _ _ he => exact inv_effect hs hr he

/-! ### Out against Program -/

/-- While RUNNING in SEARCH, Out is no longer than Program (R22). -/
theorem out_length_le_plen {s : State} (hs : Inv s) (hr : s.status = .running) (hm : s.mode = .search) :
    s.out.length ≤ s.plen := by
  have hle := (hs.search_agrees hr hm).length_le
  rwa [State.outWords_length] at hle

/-- Settles O32: before the step Out was no longer than Program, and a step adds one element at most. -/
theorem searchOutIsAtMostOneTooLong : Obligations.SearchOutIsAtMostOneTooLong := by
  intro s t hs hr hm h
  have hle := out_length_le_plen hs hr hm
  have hplen : t.plen = s.plen := congrArg List.length (step_frame h).1
  obtain ho | ⟨e, ho⟩ := step_out h
  · rw [ho]
    omega
  · rw [ho, List.length_append, List.length_singleton]
    omega

/-- A step that ends HALTED is the halt (R61). -/
theorem eq_halt_of_halted {s t : State} (h : step s = .next t) (ht : t.status = .halted) : t = s.halt := by
  obtain ⟨hr, hc⟩ := step_cases h
  cases hc with
  | halts => rfl
  | incomplete | illegal => cases ht
  | runs op p i t _ _ _ _ he => exact absurd ht (status_ne_halted he (by simp [hr]))

/-- Settles O41: Out is a beginning of Program at the halt, so that it is Program exactly when it is as long. -/
theorem matchAtHalt : Obligations.MatchAtHalt := by
  intro s t hs hr h ht
  obtain rfl := eq_halt_of_halted h ht
  refine ⟨fun hm => ?_, fun hm => by rw [State.halt_mode] at hm; simp [hm]⟩
  rw [State.halt_mode] at hm
  have hmatch : s.halt.matched = true ↔ s.outWords = s.program := by simp [hm]
  have hlen : s.outWords = s.program ↔ s.out.length = s.plen := by
    rw [← State.outWords_length]
    exact ⟨congrArg List.length, (hs.search_agrees hr hm).eq_of_length⟩
  exact ⟨hmatch, hmatch.trans hlen⟩

end Sys2Proof.Proofs
end

section
/-! PROOFS. The program memory (`20_memory.md`): what a load replaces, and the invariant over the moves of the host. -/

namespace Sys2Proof.Proofs

open Sys2Proof.Machine Sys2Proof.Safety Sys2Proof.Laws

/-! ### Loading a Program -/

/-- A load is answered exactly while STATUS is not RUNNING and for a Program within both bounds; it replaces the Program
alone (R31, R33, R113). -/
theorem hostLoad_eq_next_iff {ws : List Word} {s t : State} :
    hostLoad ws s = .next t ↔
      s.status ≠ .running ∧ (ws.length ≤ maxPlen ∧ ∀ k, s.config.pmemWords = some k → ws.length ≤ k) ∧
        t = { s with program := ws } := by
  rw [← Memory.admits_iff]
  unfold hostLoad
  split_ifs with hr hadm
  · simp [hr]
  · simp [hr, hadm, Memory.load_eq, eq_comm]
  · simp [hadm]

/-- Settles O46: each clause reads off one condition under which a load is answered. -/
theorem loadReplacesTheProgram : Obligations.LoadReplacesTheProgram := by
  intro s ws
  refine ⟨fun hr t h => ?_, fun idle fits room => hostLoad_eq_next_iff.mpr ⟨idle, ⟨fits, room⟩, rfl⟩,
    fun long t h => ?_, fun k hk long t h => ?_⟩
  all_goals obtain ⟨idle, ⟨fits, room⟩, -⟩ := hostLoad_eq_next_iff.mp h
  · exact idle hr
  · exact long.not_ge fits
  · exact long.not_ge (room k hk)

/-! ### The host moves keep the invariant -/

/-- Between runs the invariant asks of the Program only that its length fits (R31). -/
theorem inv_withProgram {s : State} (hs : Inv s) (idle : s.status ≠ .running) {ws : Memory} (fits : ws.wf = true) :
    Inv { s with program := ws } where
  plen_fits := fits
  plen_even h := absurd h idle
  no_record := hs.no_record
  has_record := hs.has_record
  match_halted := hs.match_halted
  aborted_search := hs.aborted_search
  search_agrees h := absurd h idle
  within_cap := hs.within_cap

theorem inv_hostLoad {ws : List Word} {s t : State} (hs : Inv s) (h : hostLoad ws s = .next t) : Inv t := by
  have fits := hostLoad_wf h
  obtain ⟨idle, -, rfl⟩ := hostLoad_eq_next_iff.mp h
  exact inv_withProgram hs idle fits

/-- A run that begins has no output, no record and no result, so that an even PLEN is all it needs (R91, R110). -/
theorem inv_fresh {s : State} (fits : s.program.wf = true) (even : s.plen % 2 = 0) (a0 b0 c0 : Word) (m : Mode) :
    Inv (s.fresh a0 b0 c0 m) where
  plen_fits := fits
  plen_even _ := even
  no_record _ := ⟨rfl, rfl⟩
  has_record h := by cases h
  match_halted h := by cases h
  aborted_search h := by cases h
  search_agrees _ _ := List.nil_prefix
  within_cap n _ := Nat.zero_le n

/-- A run that ends before its first step needs no even PLEN: nothing of it but the named fault is left (R91). -/
theorem inv_fresh_raise {s : State} (fits : s.program.wf = true) {k : Cause} (named : k ≠ .none) (v a0 b0 c0 : Word)
    (m : Mode) : Inv ((s.fresh a0 b0 c0 m).raise k v) where
  plen_fits := fits
  plen_even h := by cases h
  no_record h := absurd rfl h
  has_record _ := named
  match_halted h := by cases h
  aborted_search h := by cases h
  search_agrees h := by cases h
  within_cap n _ := Nat.zero_le n

theorem inv_hostInit {a0 b0 c0 : Word} {m : Mode} {s t : State} (hs : Inv s) (h : hostInit a0 b0 c0 m s = .next t) :
    Inv t := by
  obtain ⟨-, ⟨-, rfl⟩ | ⟨even, rfl⟩⟩ := hostInit_cases h
  · exact inv_fresh_raise hs.plen_fits (by decide) _ _ _ _ _
  · exact inv_fresh hs.plen_fits even _ _ _ _

/-- A hardware reset is power-on but for the capacities, which the empty Out respects (R111). -/
theorem inv_hardwareReset (s : State) : Inv (hardwareReset s) :=
  { invariantHoldsAtReset with within_cap := fun n _ => Nat.zero_le n }

/-- Settles O40: one lemma for each of the three moves; only the load and `Init` need the invariant before. -/
theorem hostMovesKeepTheInvariant : Obligations.HostMovesKeepTheInvariant :=
  fun s hs => ⟨fun _ _ h => inv_hostLoad hs h, fun _ _ _ _ _ h => inv_hostInit hs h, inv_hardwareReset s⟩

end Sys2Proof.Proofs
end

section
/-! PROOFS. The encoding (`30_encoding.md`): decoder and encoder are inverse on well-formed instructions, the opcode
table selects what the decoder reads, and Programs written as instructions. -/

namespace Sys2Proof.Proofs

open Sys2Proof.Machine Sys2Proof.Laws

/-! ### Combo operands -/

/-- The operand words 0 to 3 are constants (R49). -/
theorem decodeCombo_setWidth (n : BitVec 2) : decodeCombo (n.setWidth 64) = .const n := by
  have small : (n.setWidth 64).toNat ≤ 3 := by
    have := n.isLt
    simp; omega
  rw [decodeCombo, if_pos small, BitVec.setWidth_setWidth_of_le _ (by decide), BitVec.setWidth_eq]

/-- From operand word 7 on nothing is selected (R52, R63). -/
theorem decodeCombo_of_reserved {p : Word} (h : 7 ≤ p.toNat) : decodeCombo p = .reserved p := by
  have not_const : ¬ p.toNat ≤ 3 := by omega
  have not_reg : p ≠ 4 ∧ p ≠ 5 ∧ p ≠ 6 := by bv_omega
  obtain ⟨h4, h5, h6⟩ := not_reg
  rw [decodeCombo, if_neg not_const, if_neg h4, if_neg h5, if_neg h6]

theorem decodeCombo_encodeCombo {x : Combo} (h : x.wf = true) : decodeCombo (encodeCombo x) = x := by
  cases x with
  | const n => exact decodeCombo_setWidth n
  | reg r => cases r <;> rfl
  | reserved p => exact decodeCombo_of_reserved (of_decide_eq_true h)

/-- Every operand word reads as a combo operand that is well-formed and has that word. -/
theorem decodeCombo_wf_and_encodeCombo (p : Word) : (decodeCombo p).wf = true ∧ encodeCombo (decodeCombo p) = p := by
  unfold decodeCombo
  split_ifs with small h4 h5 h6
  · refine ⟨rfl, ?_⟩
    apply BitVec.eq_of_toNat_eq
    simp [encodeCombo]; omega
  · exact ⟨rfl, h4.symm⟩
  · exact ⟨rfl, h5.symm⟩
  · exact ⟨rfl, h6.symm⟩
  · refine ⟨decide_eq_true ?_, rfl⟩
    bv_omega

/-! ### Decoder and encoder -/

/-- Settles O1: the opcode word selects the constructor again, and each operand class keeps its operand. -/
theorem decodeOfEncode : Obligations.DecodeOfEncode := by
  intro i h
  cases i with
  | xori p | jnz p | xorc p => rfl
  | diva x | mod8 x | emit x | divb x | divc x =>
    have operand : decodeCombo (encodeCombo x) = x := decodeCombo_encodeCombo h
    simp [encode, decode, operand]

/-- Settles O2: one case for each opcode word; the operand word is kept whole or comes back from its combo operand. -/
theorem encodeOfDecode : Obligations.EncodeOfDecode := by
  intro op p i h
  obtain ⟨operand_wf, operand_word⟩ := decodeCombo_wf_and_encodeCombo p
  unfold decode at h
  split_ifs at h
  all_goals
    cases h
    subst op
    simp [Instr.wf, encode, operand_wf, operand_word]

/-- Settles O4: ten closed decodings. -/
theorem wordsOfTheTableDecode : Obligations.WordsOfTheTableDecode := by
  unfold Obligations.WordsOfTheTableDecode
  decide

/-! ### The opcode table -/

/-- Every instruction has a row, whose pattern is its opcode word (R50, R54). -/
theorem encodesToItsRow (i : Instr) : EncodesToItsRow.Statement i := by
  cases i with
  | diva x => exact EncodesToItsRow.diva x
  | xori p => exact EncodesToItsRow.xori p
  | mod8 x => exact EncodesToItsRow.mod8 x
  | jnz p => exact EncodesToItsRow.jnz p
  | xorc p => exact EncodesToItsRow.xorc p
  | emit x => exact EncodesToItsRow.emit x
  | divb x => exact EncodesToItsRow.divb x
  | divc x => exact EncodesToItsRow.divc x

/-- Every mask is the whole word, so that a row matches its pattern alone (R54). -/
theorem matches_iff {row : OpcodeRow} (mem : row ∈ opcodeTable) (op : Word) :
    row.matches op = true ↔ op = row.pattern := by
  have whole : ∀ row ∈ opcodeTable, row.mask = BitVec.allOnes 64 := by decide
  rw [OpcodeRow.matches, decide_eq_true_iff, whole row mem, BitVec.and_allOnes]

/-- The patterns of the rows are distinct (R50). -/
theorem row_eq_of_pattern_eq :
    ∀ row ∈ opcodeTable, ∀ other ∈ opcodeTable, other.pattern = row.pattern → other = row := by decide

/-- A row's pattern decodes to an instruction of the row's mnemonic, whatever the operand word (R50). -/
theorem decode_pattern (p : Word) :
    ∀ row ∈ opcodeTable, ∃ i, decode row.pattern p = .instr i ∧ i.mnemonic = row.mnemonic := by
  simp only [opcodeTable, List.forall_mem_cons]
  exact ⟨⟨_, rfl, rfl⟩, ⟨_, rfl, rfl⟩, ⟨_, rfl, rfl⟩, ⟨_, rfl, rfl⟩, ⟨_, rfl, rfl⟩, ⟨_, rfl, rfl⟩, ⟨_, rfl, rfl⟩,
    ⟨_, rfl, rfl⟩, List.forall_mem_nil _⟩

/-- The row of a decoded instruction matches its opcode word, since the word is the one the instruction encodes to. -/
theorem matches_of_decode {op p : Word} {i : Instr} (h : decode op p = .instr i) :
    ∃ row ∈ opcodeTable, row.matches op = true ∧ row.mnemonic = i.mnemonic := by
  obtain ⟨-, pair⟩ := encodeOfDecode op p i h
  obtain ⟨row, mem, name, -, hit, -⟩ := encodesToItsRow i
  exact ⟨row, mem, by rwa [pair] at hit, name⟩

/-- Settles O3: a row matches its pattern alone, the patterns are distinct, each decodes to its row's mnemonic. -/
theorem opcodeTableSelectsTheInstruction : Obligations.OpcodeTableSelectsTheInstruction := by
  intro op p
  refine ⟨fun i h => ?_, fun row mem hit => ?_, fun none_hits => ?_⟩
  · obtain ⟨row, mem, hit, name⟩ := matches_of_decode h
    refine ⟨row, mem, hit, name, fun other other_mem other_hit => ?_⟩
    have word := (matches_iff mem op).mp hit
    have other_word := (matches_iff other_mem op).mp other_hit
    exact row_eq_of_pattern_eq row mem other other_mem (other_word.symm.trans word)
  · obtain rfl := (matches_iff mem op).mp hit
    exact decode_pattern p row mem
  · cases h : decode op p with
    | instr i =>
      obtain ⟨row, mem, hit, -⟩ := matches_of_decode h
      simp [none_hits row mem] at hit
    | illegalOpcode w => rw [decode_illegal h]

/-! ### Programs written as instructions -/

theorem encodeProgram_cons (i : Instr) (is : List Instr) :
    encodeProgram (i :: is) = (encode i).1 :: (encode i).2 :: encodeProgram is := rfl

/-- Every instruction is two words (R46). -/
theorem encodeProgram_length (is : List Instr) : (encodeProgram is).length = 2 * is.length := by
  induction is with
  | nil => rfl
  | cons i is ih => simp only [encodeProgram_cons, List.length_cons, ih]; omega

/-- Instruction k of a Program stands at the word indices 2k and 2k + 1 (R45, R56). -/
theorem read_encodeProgram {is : List Instr} {k : Nat} {i : Instr} (h : is[k]? = some i) :
    Memory.read (encodeProgram is) (2 * k) = some (encode i).1 ∧
      Memory.read (encodeProgram is) (2 * k + 1) = some (encode i).2 := by
  induction is generalizing k with
  | nil => cases h
  | cons j is ih =>
    cases k with
    | zero => cases h; exact ⟨rfl, rfl⟩
    | succ k => exact ih h

/-- Settles O5: the two words of instruction k are the pair it encodes to, which decodes to it. -/
theorem encodedProgramHoldsItsInstructions : Obligations.EncodedProgramHoldsItsInstructions := by
  intro is k i hwf hk
  obtain ⟨opAt, pAt⟩ := read_encodeProgram hk
  exact ⟨encodeProgram_length is, _, _, opAt, pAt, decodeOfEncode i (hwf i (List.mem_of_getElem? hk))⟩

/-- Lines of instructions hold no label, so that the source they are looked up in makes no difference (R55). -/
theorem assembleLines_map_instr (all : List AsmLine) (is : List Instr) :
    assembleLines all (is.map .instr) = some (encodeProgram is) := by
  induction is with
  | nil => rfl
  | cons i is ih => simp [assembleLines, AsmLine.words, ih, encodeProgram_cons]

/-- Settles O6: the whole source is such a list of lines. -/
theorem instructionLinesAssembleToTheirPairs : Obligations.InstructionLinesAssembleToTheirPairs :=
  fun is => assembleLines_map_instr _ is

end Sys2Proof.Proofs
end

section
/-! PROOFS. Fetch and the step (`40_fetch_decode.md`): what a step is in each of the cases of R60 to R65, and the pointer
(R67, R69). -/

namespace Sys2Proof.Proofs

open Sys2Proof.Machine Sys2Proof.Safety Sys2Proof.Laws

/-! ### The step, case by case -/

/-- Settles O16: R60 defines the step for RUNNING alone. -/
theorem stepIsStuckUnlessRunning : Obligations.StepIsStuckUnlessRunning :=
  fun _ hs => if_neg hs

/-- Settles O17: the cycle of a RUNNING machine answers a next state of one of four shapes. -/
theorem runningMachineAlwaysSteps : Obligations.RunningMachineAlwaysSteps := by
  intro s hr
  obtain ⟨t, ht, -⟩ := cycle_shape s
  exact ⟨t, (step_running hr).trans ht⟩

/-- At PLEN or beyond the step is the halt (R61). -/
theorem step_of_atEnd {s : State} (hr : s.status = .running) (atEnd : s.plen ≤ s.pc.toNat) : step s = .next s.halt := by
  rw [step_running hr, State.cycle, fetch_atEnd.mpr atEnd]

/-- At the last index the step takes INCOMPLETE_PAIR, whatever word stands there (R62). -/
theorem step_of_last {s : State} (hr : s.status = .running) (last : s.pc.toNat + 1 = s.plen) :
    step s = .next (s.raise .incompletePair s.pc) := by
  rw [step_running hr, State.cycle, fetch_incompletePair.mpr last]

/-- The step on a fetched pair is decided by what the pair decodes to (R60, R65). -/
theorem step_of_pair {s : State} {op p : Word} (hr : s.status = .running) (opAt : s.program.read s.pc.toNat = some op)
    (pAt : s.program.read (s.pc.toNat + 1) = some p) :
    (∀ i, decode op p = .instr i → step s = exec i s) ∧
    (∀ w, decode op p = .illegalOpcode w → step s = .next (s.raise .illegalOpcode op)) := by
  rw [step_running hr, State.cycle, fetch_pair.mpr ⟨opAt, pAt⟩]
  refine ⟨fun i hd => by simp only [hd], fun w hd => ?_⟩
  obtain rfl := decode_illegal hd
  simp only [hd]

/-- Settles O12: the fetch finds the pair, and the cycle is `exec` of what it decodes to. -/
theorem stepRunsTheDecodedInstruction : Obligations.StepRunsTheDecodedInstruction :=
  fun _ _ _ i hr opAt pAt hd => (step_of_pair hr opAt pAt).1 i hd

/-- Settles O14: the last index by its own case of the fetch; the other two clauses hold of every pointer. -/
theorem lastIndexTakesIncompletePair : Obligations.LastIndexTakesIncompletePair := by
  intro s hr
  refine ⟨step_of_last hr, fun last even => by omega, fun op p i _ opAt pAt hd => ?_⟩
  exact stepRunsTheDecodedInstruction s op p i hr opAt pAt hd

/-! ### Opcode words -/

/-- The opcode words 0 to 7 have an instruction (R50). -/
theorem decode_of_lt {op : Word} (h : op.toNat < 8) (p : Word) : ∃ i, decode op p = .instr i := by
  unfold decode
  split_ifs
  case neg => bv_omega
  all_goals exact ⟨_, rfl⟩

/-- From 8 on an opcode word is illegal (R51, R65): every instruction's opcode word lies in its row of the table. -/
theorem decode_of_ge {op : Word} (h : 8 ≤ op.toNat) (p : Word) : decode op p = .illegalOpcode op := by
  cases hd : decode op p with
  | illegalOpcode w => rw [decode_illegal hd]
  | instr i =>
    obtain ⟨-, hword⟩ := encodeOfDecode op p i hd
    obtain ⟨-, -, -, -, -, hle⟩ := encodesToItsRow i
    rw [hword] at hle
    exact absurd (show op.toNat ≤ 7 from hle) (by omega)

/-- Settles O15: below 8 the word decodes, to an instruction with that very pair; from 8 on it is illegal. -/
theorem opcodeWordOutsideTableIsIllegal : Obligations.OpcodeWordOutsideTableIsIllegal := by
  intro s op p hr opAt pAt
  obtain ⟨runs, illegal⟩ := step_of_pair hr opAt pAt
  refine ⟨fun high => illegal op (decode_of_ge high p), fun low => ?_⟩
  obtain ⟨i, hd⟩ := decode_of_lt low p
  exact ⟨i, (encodeOfDecode op p i hd).2, runs i hd⟩

/-! ### The halt -/

/-- `Out = Program`, element by element (R19). -/
theorem outWords_eq_program_iff (s : State) : s.outWords = s.program ↔
    s.out.length = s.plen ∧ ∀ i, i < s.plen → (s.out[i]?).map zext64 = s.program.read i := by
  have get (i : Nat) : s.outWords[i]? = (s.out[i]?).map zext64 := List.getElem?_map
  constructor
  · intro h
    refine ⟨by rw [← State.outWords_length, h]; rfl, fun i _ => ?_⟩
    rw [← get, h]
    rfl
  · rintro ⟨hlen, hget⟩
    refine List.ext_getElem? fun i => ?_
    rcases Nat.lt_or_ge i s.plen with hi | hi
    · rw [get]
      exact hget i hi
    · rw [List.getElem?_eq_none (by rw [State.outWords_length, hlen]; exact hi), List.getElem?_eq_none hi]

/-- Settles O13: the halt is the case of the fetch at the end, and no other shape of a step ends HALTED. -/
theorem stepHaltsAtOrBeyondPlen : Obligations.StepHaltsAtOrBeyondPlen := by
  intro s hr
  refine ⟨fun atEnd => ?_, fun t h ht => ?_, fun noWords noOut hm => ?_⟩
  · rw [step_of_atEnd hr atEnd]
    simp only [State.halt, State.outIsProgram, outWords_eq_program_iff, Bool.decide_and]
  · obtain ⟨-, hc⟩ := step_cases h
    cases hc with
    | halts atEnd => exact atEnd
    | incomplete | illegal => cases ht
    | runs op p i t _ _ _ _ he => exact absurd ht (status_ne_halted he (by simp [hr]))
  · have atEnd : s.plen ≤ s.pc.toNat := by simp [State.plen, noWords]
    exact ⟨s.halt, step_of_atEnd hr atEnd, rfl, by simp [hm, State.outWords, noWords, noOut]⟩

/-! ### The pointer -/

/-- After a fetched pair IP + 2 does not wrap and stays within PLEN, since PLEN fits the pointer (R31, R67). -/
theorem pc_add_two_of_pair {s : State} {p : Word} (fits : s.program.wf = true)
    (pAt : s.program.read (s.pc.toNat + 1) = some p) :
    (s.pc + 2).toNat = s.pc.toNat + 2 ∧ s.pc.toNat + 2 ≤ s.plen := by
  have below : s.pc.toNat + 1 < s.plen := Memory.lt_of_read pAt
  have small : s.plen ≤ 2 ^ 64 - 2 := Memory.wf_iff.mp fits
  exact ⟨by bv_omega, below⟩

/-- Settles O11: the step is the pair's instruction, which adds 2 to IP. -/
theorem pointerNeverWraps : Obligations.PointerNeverWraps := by
  intro s t op p hs hr opAt pAt h notFaulted notTaken
  obtain ⟨runs, illegal⟩ := step_of_pair hr opAt pAt
  cases hd : decode op p with
  | illegalOpcode w =>
    cases (illegal w hd).symm.trans h
    exact absurd rfl notFaulted
  | instr i =>
    obtain ⟨-, moves⟩ := pointerAdvancesByTwoOrJumps i s t hr ((runs i hd).symm.trans h)
    obtain ⟨-, advances⟩ := moves notFaulted
    have hpc : t.pc = s.pc + 2 := by
      refine advances fun q hi => by_contra fun ha => notTaken ⟨?_, ha⟩
      exact (decode_jnz (hi ▸ hd)).1
    obtain ⟨noWrap, within⟩ := pc_add_two_of_pair hs.plen_fits pAt
    rw [hpc, noWrap]
    exact ⟨rfl, within, by omega⟩

/-- Settles O19: the jump loads IP with what it holds; a state that steps to itself is all that its run reaches. -/
theorem jumpToItselfNeverEnds : Obligations.JumpToItselfNeverEnds := by
  intro s hr ha opAt pAt
  have loops : step s = .next s := by
    rw [stepRunsTheDecodedInstruction s 3 s.pc (.jnz s.pc) hr opAt pAt rfl, exec, execJnz,
      if_pos (by simpa [State.aIsNonzero] using ha)]
    rfl
  refine ⟨loops, fun t ht => reaches_keeps (P := (· = s)) ?_ ht rfl⟩
  rintro _ u rfl hu
  exact Host.Outcome.next.inj (hu.symm.trans loops)

end Sys2Proof.Proofs
end

section
/-! PROOFS. The step (`40_fetch_decode.md` R60) against the reference procedure of `95_test_vectors.md` Part 4: each update
of the state is the procedure's on the same values as natural numbers, and so is each instruction on its pair. -/

namespace Sys2Proof.Proofs

open Sys2Proof.Machine Sys2Proof.Safety Sys2Proof.Laws

/-! ### The values as natural numbers -/

theorem refProgram_length (s : State) : s.refProgram.length = s.plen := List.length_map _

theorem refProgram_getElem? (s : State) (n : Nat) : s.refProgram[n]? = (s.program.read n).map BitVec.toNat :=
  List.getElem?_map

theorem refProgram_getD {s : State} {n : Nat} {w : Word} (h : s.program.read n = some w) :
    s.refProgram.getD n 0 = w.toNat := by
  rw [List.getD_eq_getElem?_getD, refProgram_getElem?, h]
  rfl

/-- Out is the Program as numbers exactly when it is as words (R19). -/
theorem toRef_out_eq_refProgram_iff (s : State) : s.toRef.out = s.refProgram ↔ s.outWords = s.program := by
  have numbers : s.toRef.out = s.outWords.map BitVec.toNat := by
    simp [State.toRef, State.outWords]
  rw [numbers]
  exact List.map_inj_right fun _ _ => BitVec.eq_of_toNat_eq

/-- The procedure's combo value is R63's. -/
theorem toRef_combo (s : State) (p : Word) : s.toRef.combo p.toNat = (comboValue s p).map BitVec.toNat := by
  unfold RefState.combo comboValue
  split_ifs <;> rfl

/-! ### The updates -/

theorem toRef_raise (s : State) (k : Cause) (v : Word) : (s.raise k v).toRef = s.toRef.fault k.code v.toNat := rfl

theorem toRef_advance {s : State} (noWrap : (s.pc + 2).toNat = s.pc.toNat + 2) : s.advance.toRef = s.toRef.next := by
  rw [State.toRef, State.advance_pc, noWrap]
  rfl

theorem toRef_writeReg_advance {s : State} (noWrap : (s.pc + 2).toNat = s.pc.toNat + 2) (r : Reg) (v : Word) :
    (s.writeReg r v).advance.toRef = (s.writeReg r v).toRef.next :=
  toRef_advance (s := s.writeReg r v) noWrap

theorem toRef_abort (s : State) : s.abort.toRef = { s.toRef with status := .aborted } := rfl

theorem toRef_halt (s : State) : s.halt.toRef =
    { s.toRef with
      status := .halted
      found := decide (s.mode = .search) && decide (s.toRef.out = s.refProgram) } := by
  simp only [toRef_out_eq_refProgram_iff]
  rfl

/-- EMIT's update with its comparator: the advanced state with the element, aborted where Program goes on with another
word (R83, R84). -/
theorem emitElem_eq_ite (s : State) (e : Elem) : s.emitElem e =
    if s.mode = .search ∧ s.program.read s.out.length ≠ some (zext64 e) then (s.appendOut e).advance.abort
    else (s.appendOut e).advance := by
  rw [State.emitElem, State.compare, ite_and]
  simp only [diverges_append, State.advance_mode, State.appendOut_mode]

/-- The procedure's comparator, made after the append, tests whether Program goes on with the element (R84). -/
theorem refProgram_diverges_iff (s : State) (e : Elem) :
    s.refProgram.length < s.out.length + 1 ∨ s.refProgram[s.out.length]? ≠ some e.toNat ↔
      s.program.read s.out.length ≠ some (zext64 e) := by
  rw [refProgram_length, refProgram_getElem?]
  cases hw : s.program.read s.out.length with
  | none => simp
  | some w =>
    have below : s.out.length < s.plen := Memory.lt_of_read hw
    have asNumbers : w = zext64 e ↔ w.toNat = e.toNat := by rw [← BitVec.toNat_inj, zext64_toNat]
    simp [asNumbers, Nat.not_lt.mpr below]

theorem toRef_emitElem {s : State} (noWrap : (s.pc + 2).toNat = s.pc.toNat + 2) (v : Word) :
    (s.emitElem (low3 v)).toRef = s.toRef.comboEffect s.refProgram (decide (s.mode = .search)) 5 v.toNat := by
  have appended : (s.appendOut (low3 v)).advance.toRef =
      { s.toRef with out := s.toRef.out ++ [v.toNat % 8], ip := s.toRef.ip + 2 } := by
    rw [toRef_advance (s := s.appendOut (low3 v)) noWrap]
    simp [State.toRef, RefState.next]
  have length : (s.toRef.out ++ [v.toNat % 8]).length = s.out.length + 1 := by simp [State.toRef]
  have test := refProgram_diverges_iff s (low3 v)
  rw [low3_toNat] at test
  rw [RefState.comboEffect, if_neg (by decide), if_neg (by decide), emitElem_eq_ite]
  simp only [length, Nat.add_sub_cancel, test, decide_eq_true_eq]
  split_ifs
  · rw [toRef_abort, appended]
  · exact appended

/-! ### The procedure on a pair -/

/-- The procedure's step after its fetch: what it does with the numbers of a pair. -/
def refPair (s : RefState) (P : List Nat) (search : Bool) (op p : Nat) : RefState :=
  if 7 < op then s.fault 3 op
  else if op = 0 ∨ op = 2 ∨ op = 5 ∨ op = 6 ∨ op = 7 then
    match s.combo p with
    | none => s.fault 4 p
    | some v => s.comboEffect P search op v
  else if op = 1 then { s with x1 := s.x1 ^^^ p, ip := s.ip + 2 }
  else if op = 3 then (if s.x0 ≠ 0 then { s with ip := p } else s.next)
  else { s with x1 := s.x1 ^^^ s.x2, ip := s.ip + 2 }

theorem refStep_of_pair {s : State} {op p : Word} (opAt : s.program.read s.pc.toNat = some op)
    (pAt : s.program.read (s.pc.toNat + 1) = some p) (search : Bool) :
    s.toRef.step s.refProgram search = refPair s.toRef s.refProgram search op.toNat p.toNat := by
  have below : s.pc.toNat + 1 < s.plen := Memory.lt_of_read pAt
  have hop : s.refProgram.getD s.toRef.ip 0 = op.toNat := refProgram_getD opAt
  have hp : s.refProgram.getD (s.toRef.ip + 1) 0 = p.toNat := refProgram_getD pAt
  have ip : s.toRef.ip = s.pc.toNat := rfl
  rw [RefState.step, refProgram_length, if_neg (by omega), if_neg (by omega), hop, hp]
  rfl

/-- The outcome is a next state whose values, as natural numbers, are `r`. -/
def Refines (o : Host.Outcome State Fault Refusal) (r : RefState) : Prop := ∃ t, o = .next t ∧ t.toRef = r

/-- Resolving a combo operand: the procedure faults where the machine does, and goes on with the same value. -/
theorem withValue_combo_refines {s : State} {x : Combo} (wf : x.wf = true) {op : Nat}
    (takesCombo : op = 0 ∨ op = 2 ∨ op = 5 ∨ op = 6 ∨ op = 7) {P : List Nat} {search : Bool}
    {k : Word → Host.Outcome State Fault Refusal}
    (goesOn : ∀ v, Refines (k v) (s.toRef.comboEffect P search op v.toNat)) :
    Refines (s.withValue (s.combo x) k) (refPair s.toRef P search op (encodeCombo x).toNat) := by
  have resolved := combo_decodeCombo s (encodeCombo x)
  rw [decodeCombo_encodeCombo wf] at resolved
  rw [refPair, if_neg (by omega), if_pos takesCombo, toRef_combo, resolved]
  cases comboValue s (encodeCombo x) with
  | none => exact ⟨_, rfl, toRef_raise s .invalidCombo _⟩
  | some v => exact goesOn v

/-- A divide into the procedure's destination for its opcode. -/
theorem divideInto_refines {s : State} (noWrap : (s.pc + 2).toNat = s.pc.toNat + 2) {x : Combo} (wf : x.wf = true)
    {rd : Reg} {op : Nat} (divides : op = 0 ∨ op = 6 ∨ op = 7)
    (dest : ∀ v, (s.writeReg rd v).toRef = s.toRef.setDest op v.toNat) (P : List Nat) (search : Bool) :
    Refines (s.divideInto rd x) (refPair s.toRef P search op (encodeCombo x).toNat) := by
  refine withValue_combo_refines wf (by omega) fun k => ?_
  rw [RefState.comboEffect, if_pos divides]
  split_ifs with big
  · rw [div2_error big]
    exact ⟨_, rfl, toRef_raise s .shiftOverflow k⟩
  · rw [div2_ok (by omega)]
    refine ⟨_, rfl, ?_⟩
    rw [toRef_writeReg_advance noWrap, dest, BitVec.toNat_ushiftRight]
    rfl

/-- An instruction does to the values what the procedure does with its pair. -/
theorem exec_refines {s : State} (unbounded : s.config.outCap = none) (noWrap : (s.pc + 2).toNat = s.pc.toNat + 2)
    {i : Instr} (wf : i.wf = true) :
    Refines (exec i s)
      (refPair s.toRef s.refProgram (decide (s.mode = .search)) (encode i).1.toNat (encode i).2.toNat) := by
  cases i with
  | diva x => exact divideInto_refines (op := 0) noWrap wf (by decide) (fun _ => rfl) _ _
  | divb x => exact divideInto_refines (op := 6) noWrap wf (by decide) (fun _ => rfl) _ _
  | divc x => exact divideInto_refines (op := 7) noWrap wf (by decide) (fun _ => rfl) _ _
  | mod8 x =>
    refine withValue_combo_refines (op := 2) wf (by decide) fun v => ⟨_, rfl, ?_⟩
    rw [toRef_writeReg_advance noWrap]
    rw [RefState.comboEffect, if_neg (by decide), if_pos rfl, ← low3_toNat, ← zext64_toNat]
    rfl
  | emit x =>
    refine withValue_combo_refines (op := 5) wf (by decide) fun v => ?_
    have room : s.outFull = false := by simp [State.outFull, unbounded]
    rw [room]
    exact ⟨_, rfl, toRef_emitElem noWrap v⟩
  | xori p =>
    refine ⟨_, rfl, ?_⟩
    rw [toRef_writeReg_advance noWrap]
    rfl
  | xorc p =>
    refine ⟨_, rfl, ?_⟩
    rw [toRef_writeReg_advance noWrap]
    rfl
  | jnz p =>
    have test : s.aIsNonzero = true ↔ s.toRef.x0 ≠ 0 := by
      simp [State.aIsNonzero, State.toRef, ← BitVec.toNat_inj]
    refine ⟨_, rfl, ?_⟩
    rw [apply_ite State.toRef, toRef_advance noWrap]
    simp only [test]
    rfl

/-- Settles O53: the procedure's fetch is the machine's; after it both take the same fault or run the same pair. -/
theorem stepRefinesTheReferenceProcedure : Obligations.StepRefinesTheReferenceProcedure := by
  intro s hs hr unbounded
  obtain ⟨t, ht⟩ := runningMachineAlwaysSteps s hr
  refine ⟨t, ht, ?_⟩
  obtain ⟨-, hc⟩ := step_cases ht
  cases hc with
  | halts atEnd =>
    rw [toRef_halt, RefState.step, refProgram_length, if_pos (show s.plen ≤ s.toRef.ip from atEnd)]
  | incomplete last =>
    have ip : s.toRef.ip = s.pc.toNat := rfl
    rw [RefState.step, refProgram_length, if_neg (by omega), if_pos (by omega)]
    rfl
  | illegal op p opAt pAt bad =>
    have high : 7 < op.toNat := by
      by_contra low
      obtain ⟨i, hd⟩ := decode_of_lt (op := op) (by omega) p
      rw [bad] at hd
      cases hd
    rw [refStep_of_pair opAt pAt, refPair, if_pos high]
    rfl
  | runs op p i t opAt pAt dec ex _ =>
    obtain ⟨wf, pair⟩ := encodeOfDecode op p i dec
    obtain ⟨noWrap, -⟩ := pc_add_two_of_pair hs.plen_fits pAt
    obtain ⟨u, hu, refines⟩ := exec_refines unbounded noWrap wf
    obtain rfl := Host.Outcome.next.inj (hu.symm.trans ex)
    rw [pair] at refines
    rw [refines, refStep_of_pair opAt pAt]

end Sys2Proof.Proofs
end

section
/-! PROOFS. Divide (`41_divide.md`): the quotient by a power of two (R70), and the shared effect of DIVA, DIVB and DIVC for
any destination, in each of its three cases (R71 to R73). -/

namespace Sys2Proof.Proofs

open Sys2Proof.Machine Sys2Proof.Safety Sys2Proof.Laws

/-! ### The quotient -/

/-- The constants 0 to 3 are their own values (R63). -/
theorem comboValue_of_const {s : State} {p k : Word} (small : p.toNat ≤ 3) (value : comboValue s p = some k) : k = p := by
  rw [comboValue, if_pos small] at value
  exact (Option.some.inj value).symm

/-- Settles O21: below the limit the result is the right shift, which is the truncating quotient. -/
theorem divisionByPowerOfTwo : Obligations.DivisionByPowerOfTwo := by
  refine ⟨fun a k => div2_error, fun a k small => ?_, fun s p k const value => ?_⟩
  · have quotient : (a >>> k.toNat).toNat = a.toNat / 2 ^ k.toNat := by
      rw [BitVec.toNat_ushiftRight, Nat.shiftRight_eq_div_pow]
    exact ⟨_, div2_ok small, quotient, quotient.trans_le (Nat.div_le_self _ _)⟩
  · rw [comboValue_of_const const value]
    omega

/-! ### The shared effect, for any destination -/

/-- A shift amount below 64: the destination takes the quotient of A and IP advances (R70). -/
theorem divideInto_quotient {s : State} {x : Combo} {k : Word} (rd : Reg) (value : s.combo x = .ok k)
    (small : k.toNat < 64) :
    s.divideInto rd x = .next (s.writeReg rd (BitVec.ofNat 64 (s.a.toNat / 2 ^ k.toNat))).advance := by
  rw [State.divideInto, value, State.withValue_ok, div2_ok small, State.withValue_ok, shiftRight_eq_div]

/-- A shift amount from 64 on: SHIFT_OVERFLOW recording the full amount (R70). -/
theorem divideInto_shiftOverflow {s : State} {x : Combo} {k : Word} (rd : Reg) (value : s.combo x = .ok k)
    (big : 64 ≤ k.toNat) : s.divideInto rd x = .next (s.raise .shiftOverflow k) := by
  rw [State.divideInto, value, State.withValue_ok, div2_error big, State.withValue_error]

/-- An operand word from 7 on: INVALID_COMBO recording the word (R63). -/
theorem divideInto_invalidCombo (s : State) {p : Word} (rd : Reg) (reserved : 7 ≤ p.toNat) :
    s.divideInto rd (decodeCombo p) = .next (s.raise .invalidCombo p) := by
  rw [State.divideInto, combo_of_none (comboValue_eq_none.mpr reserved), State.withValue_error]

/-- Operand 0 divides by 1, which copies A into the destination. -/
theorem divideInto_copies (s : State) (rd : Reg) :
    s.divideInto rd (decodeCombo 0) = .next (s.writeReg rd s.a).advance := by
  have divByOne : BitVec.ofNat 64 (s.a.toNat / 2 ^ (0 : Word).toNat) = s.a := by simp
  rw [divideInto_quotient rd (combo_of_value (p := 0) rfl) (by decide), divByOne]

/-- A is below 2^A, so that A divided by its own power is 0. -/
theorem divideInto_ownPower {s : State} (rd : Reg) (small : s.a.toNat < 64) :
    s.divideInto rd (.reg .a) = .next (s.writeReg rd 0).advance := by
  rw [divideInto_quotient rd (k := s.a) rfl small, Nat.div_eq_of_lt Nat.lt_two_pow_self]
  rfl

/-! ### The three instructions -/

/-- Settles O22: the cases of the shared effect, with A as destination. -/
theorem divaDividesA : Obligations.DivaDividesA := by
  intro s p
  exact ⟨rfl, fun _ value => divideInto_quotient .a (combo_of_value value),
    fun _ value => divideInto_shiftOverflow .a (combo_of_value value),
    divideInto_invalidCombo s .a, divideInto_ownPower .a⟩

/-- Settles O23: the cases of the shared effect, with B as destination. -/
theorem divbDividesAIntoB : Obligations.DivbDividesAIntoB := by
  intro s p
  exact ⟨rfl, fun _ value => divideInto_quotient .b (combo_of_value value),
    fun _ value => divideInto_shiftOverflow .b (combo_of_value value),
    divideInto_invalidCombo s .b, divideInto_copies s .b⟩

/-- Settles O24: the cases of the shared effect, with C as destination. -/
theorem divcDividesAIntoC : Obligations.DivcDividesAIntoC := by
  intro s p
  exact ⟨rfl, fun _ value => divideInto_quotient .c (combo_of_value value),
    fun _ value => divideInto_shiftOverflow .c (combo_of_value value),
    divideInto_invalidCombo s .c, divideInto_copies s .c⟩

end Sys2Proof.Proofs
end

section
/-! PROOFS. Bitwise (`42_bitwise.md`): the exclusive or into B that XORI and XORC share, for any word (R75, R77), and the low
three bits of MOD8 (R76). -/

namespace Sys2Proof.Proofs

open Sys2Proof.Machine Sys2Proof.Safety Sys2Proof.Laws

/-! ### The shared effect of XORI and XORC, for any word -/

/-- B takes its exclusive or with a word and IP advances. -/
def xorIntoB (s : State) (w : Word) : State := (s.writeReg .b (s.b ^^^ w)).advance

/-- R75: the word is the literal operand. -/
theorem exec_xori (s : State) (p : Word) : exec (.xori p) s = .next (xorIntoB s p) := rfl

/-- R77: the word is C, for every operand word. -/
theorem exec_xorc (s : State) (p : Word) : exec (.xorc p) s = .next (xorIntoB s s.c) := rfl

@[simp] theorem xorIntoB_b (s : State) (w : Word) : (xorIntoB s w).b = s.b ^^^ w := rfl

@[simp] theorem xorIntoB_c (s : State) (w : Word) : (xorIntoB s w).c = s.c := rfl

theorem xorIntoB_frame (s : State) (w : Word) : xorIntoB s w = { s with b := (xorIntoB s w).b, pc := s.pc + 2 } := rfl

theorem xorIntoB_getLsbD (s : State) (w : Word) (n : Nat) :
    (xorIntoB s w).b.getLsbD n = (s.b.getLsbD n != w.getLsbD n) := by
  rw [xorIntoB_b, BitVec.getLsbD_xor, Bool.bne_eq_xor]

theorem xorIntoB_zero (s : State) : (xorIntoB s 0).b = s.b := BitVec.xor_zero

theorem xorIntoB_allOnes (s : State) : (xorIntoB s (BitVec.allOnes 64)).b = ~~~s.b := BitVec.xor_allOnes

theorem xorIntoB_own (s : State) : (xorIntoB s s.b).b = 0 := BitVec.xor_self

/-- The same word twice cancels, so that B is restored. -/
theorem xorIntoB_twice (s : State) (w : Word) : (xorIntoB (xorIntoB s w) w).b = s.b := by
  rw [xorIntoB_b, xorIntoB_b, BitVec.xor_assoc, BitVec.xor_self, BitVec.xor_zero]

/-! ### The three instructions -/

/-- Settles O25: the shared effect with the literal as its word. -/
theorem xoriXorsTheLiteral : Obligations.XoriXorsTheLiteral := by
  intro s p
  refine ⟨rfl, xorIntoB s p, exec_xori s p, xorIntoB_frame s p, xorIntoB_getLsbD s p, ?_, ?_, ?_⟩
  · rintro rfl
    exact xorIntoB_zero s
  · rintro rfl
    exact xorIntoB_allOnes s
  · exact ⟨_, exec_xori _ p, xorIntoB_twice s p⟩

/-- The low three bits of a word, as a program word, are the word mod 8 (R74). -/
theorem zext64_low3 (v : Word) : zext64 (low3 v) = BitVec.ofNat 64 (v.toNat % 8) := by
  rw [← low3_toNat, ← zext64_toNat, BitVec.ofNat_toNat, BitVec.setWidth_eq]

/-- Settles O26: the combo operand resolves to a value, whose low three bits B takes, or to INVALID_COMBO. -/
theorem mod8LoadsTheLowThreeBits : Obligations.Mod8LoadsTheLowThreeBits := by
  intro s p
  refine ⟨rfl, fun v value => ?_, fun reserved => ?_⟩
  · rw [exec, execMod8, combo_of_value value, State.withValue_ok, zext64_low3]
    rfl
  · rw [exec, execMod8, combo_of_none (comboValue_eq_none.mpr reserved), State.withValue_error]
    rfl

/-- Settles O27: the shared effect with C as its word, which XORC itself leaves as it was; the last index by the fetch. -/
theorem xorcXorsC : Obligations.XorcXorsC := by
  intro s p
  refine ⟨rfl, ⟨xorIntoB s s.c, exec_xorc s, xorIntoB_frame s s.c, xorIntoB_getLsbD s s.c, ?_, ?_, ?_⟩, ?_⟩
  · intro zero
    rw [zero, xorIntoB_zero]
  · intro same
    rw [← same, xorIntoB_own]
  · refine ⟨_, exec_xorc _ p, ?_⟩
    rw [xorIntoB_c, xorIntoB_twice]
  · exact fun running _ last => step_of_last running last

end Sys2Proof.Proofs
end

section
/-! PROOFS. Jump (`43_jump.md`): JNZ taken and not taken (R80), and the fetch at a target below the last index. -/

namespace Sys2Proof.Proofs

open Sys2Proof.Machine Sys2Proof.Laws

theorem exec_jnz_of_zero {s : State} (zero : s.a = 0) (p : Word) : exec (.jnz p) s = .next s.advance := by
  rw [exec, execJnz, if_neg (by simpa [State.aIsNonzero] using zero)]

theorem exec_jnz_of_ne_zero {s : State} (nonzero : s.a ≠ 0) (p : Word) : exec (.jnz p) s = .next (s.jump p) := by
  rw [exec, execJnz, if_pos (by simpa [State.aIsNonzero] using nonzero)]

/-- Below the last index both words exist, so that the fetch finds a pair, whatever the parity of IP (R37, R60). -/
theorem exists_fetch_pair {s : State} (below : s.pc.toNat + 1 < s.plen) :
    ∃ op p, s.program.read s.pc.toNat = some op ∧ s.program.read (s.pc.toNat + 1) = some p ∧
      s.fetch = .pair op p := by
  obtain ⟨op, opAt⟩ := Option.isSome_iff_exists.mp (Memory.read_isSome.mpr (Nat.lt_of_succ_lt below))
  obtain ⟨p, pAt⟩ := Option.isSome_iff_exists.mp (Memory.read_isSome.mpr below)
  exact ⟨op, p, opAt, pAt, fetch_pair.mpr ⟨opAt, pAt⟩⟩

/-- Settles O28: a taken jump changes IP alone, and the next step is the step of its place at the target. -/
theorem jnzJumpsWhenAIsNotZero : Obligations.JnzJumpsWhenAIsNotZero := by
  intro s p
  refine ⟨rfl, fun zero => exec_jnz_of_zero zero p,
    fun nonzero => ⟨s.jump p, exec_jnz_of_ne_zero nonzero p, rfl, ?_, ?_, ?_⟩⟩
  · exact fun running atEnd => ⟨_, step_of_atEnd (s := s.jump p) running atEnd, rfl, rfl⟩
  · exact fun running last => step_of_last (s := s.jump p) running last
  · exact fun below => exists_fetch_pair (s := s.jump p) below

end Sys2Proof.Proofs
end

section
/-! PROOFS. Emit (`44_emit.md`): EMIT in each of its cases (R83), the search-mode comparator (R84), that DIRECT makes no
comparison (R86), and what the comparator guarantees (R85), by running the SEARCH run beside the DIRECT run. -/

namespace Sys2Proof.Proofs

open Sys2Proof.Machine Sys2Proof.Safety Sys2Proof.Laws

/-! ### EMIT, case by case -/

/-- With a value and room in the buffer: append, advance, compare (R83). -/
theorem exec_emit_of_room {s : State} {x : Combo} {v : Word} (value : s.combo x = .ok v)
    (room : s.config.outCap ≠ some s.out.length) : exec (.emit x) s = .next (s.emitElem (low3 v)) := by
  rw [exec, execEmit, value, State.withValue_ok, if_neg (by simpa [State.outFull] using room)]

/-- With a value and a full buffer: OUTPUT_OVERFLOW(len(Out)), before the append (R83, R95). -/
theorem exec_emit_of_full {s : State} {x : Combo} {v : Word} (value : s.combo x = .ok v)
    (full : s.config.outCap = some s.out.length) :
    exec (.emit x) s = .next (s.raise .outputOverflow (BitVec.ofNat 64 s.out.length)) := by
  rw [exec, execEmit, value, State.withValue_ok, if_pos (by simpa [State.outFull] using full)]

/-- From operand word 7 on: INVALID_COMBO(p), whether or not the buffer is full (R83, R97). -/
theorem exec_emit_of_reserved (s : State) {p : Word} (reserved : 7 ≤ p.toNat) :
    exec (.emit (decodeCombo p)) s = .next (s.raise .invalidCombo p) := by
  rw [exec, execEmit, combo_of_none (comboValue_eq_none.mpr reserved), State.withValue_error]

/-- Settles O29: the three cases of EMIT; of the comparator only what it can do to STATUS. -/
theorem emitAppendsToOut : Obligations.EmitAppendsToOut := by
  intro s p
  refine ⟨rfl, fun v value room => ⟨(s.emitElem (low3 v)).status, ?_, fun direct => ?_, fun changed => ?_⟩,
    fun v value full => ⟨_, exec_emit_of_full (combo_of_value value) full, fun fits => ?_⟩, exec_emit_of_reserved s⟩
  · have element : BitVec.ofNat 3 (v.toNat % 8) = low3 v := by rw [← low3_toNat, BitVec.ofNat_toNat, BitVec.setWidth_eq]
    rw [exec_emit_of_room (combo_of_value value) room, element, emitElem_eq]
  · obtain ⟨-, search⟩ | ⟨same, -⟩ := emitElem_status_cases s (low3 v)
    · rw [direct] at search
      cases search
    · exact same
  · obtain ⟨aborted, -⟩ | ⟨same, -⟩ := emitElem_status_cases s (low3 v)
    · exact aborted
    · exact absurd same changed
  · rw [BitVec.toNat_ofNat, Nat.mod_eq_of_lt fits]

/-! ### The comparator -/

/-- In DIRECT nothing is compared (R86). -/
theorem emitElem_of_direct {s : State} (direct : s.mode = .direct) (e : Elem) :
    s.emitElem e = (s.appendOut e).advance := by
  rw [emitElem_eq_ite, if_neg (by simp [direct])]

/-- The run goes on where the element is Program's next word (R84). -/
theorem emitElem_of_agrees {s : State} {e : Elem} (agrees : s.program.read s.out.length = some (zext64 e)) :
    s.emitElem e = (s.appendOut e).advance := by
  rw [emitElem_eq_ite, if_neg (by simp [agrees])]

/-- In SEARCH the run aborts where Program has no next word or another one (R84). -/
theorem emitElem_of_diverges {s : State} {e : Elem} (search : s.mode = .search)
    (diverges : s.program.read s.out.length ≠ some (zext64 e)) : s.emitElem e = (s.appendOut e).advance.abort := by
  rw [emitElem_eq_ite, if_pos ⟨search, diverges⟩]

/-- A word is the element as a 64-bit value exactly when their numbers agree (R84). -/
theorem eq_zext64_low3_iff {w v : Word} : w = zext64 (low3 v) ↔ w.toNat = v.toNat % 8 := by
  rw [← BitVec.toNat_inj, zext64_toNat, low3_toNat]

/-- Settles O30: the word that the comparator reads is none, another word, or the element. -/
theorem searchComparatorAborts : Obligations.SearchComparatorAborts := by
  intro s p v value room
  have emits := exec_emit_of_room (combo_of_value value) room
  have aborts (search : s.mode = .search) (diverges : s.program.read s.out.length ≠ some (zext64 (low3 v))) :
      exec (.emit (decodeCombo p)) s = .next (s.appendOut (low3 v)).advance.abort := by
    rw [emits, emitElem_of_diverges search diverges]
  have otherWord {w : Word} (next : s.program.read s.out.length = some w) (other : w.toNat ≠ v.toNat % 8) :
      s.program.read s.out.length ≠ some (zext64 (low3 v)) := by
    rw [next]
    exact fun same => other (eq_zext64_low3_iff.mp (Option.some.inj same))
  rw [BitVec.ofNat_toNat]
  refine ⟨fun direct => ?_, fun search long => aborts search ?_, fun w search next =>
    ⟨fun other => aborts search (otherWord next other), fun same => ?_,
      fun big => ⟨_, aborts search (otherWord next (by omega)), rfl⟩⟩⟩
  · rw [emits, emitElem_of_direct direct]
    rfl
  · simp [Memory.read_eq_none.mpr (Nat.le_of_lt_succ long)]
  · rw [emits, emitElem_of_agrees (next.trans (congrArg some (eq_zext64_low3_iff.mpr same)))]
    rfl

/-! ### DIRECT -/

/-- In DIRECT a state looks alike to every instruction with another Program. -/
theorem withProgram_alike {i : Instr} (other : Memory) {s : State} (direct : s.mode = .direct) :
    Alike (fun t t' => t' = { t with program := other }) i s { s with program := other } where
  reads r _ := by cases r <;> rfl
  faults _ _ := rfl
  writes _ _ _ := rfl
  jumps _ := rfl
  advances := rfl
  buffer _ _ := ⟨rfl, rfl⟩
  emits _ e _ := by
    rw [emitElem_of_direct direct, emitElem_of_direct (s := { s with program := other }) direct]
    rfl

/-- In DIRECT no instruction aborts (R86). -/
theorem status_ne_aborted_of_direct {i : Instr} {s t : State} (h : Effect i s t) (direct : s.mode = .direct)
    (hs : s.status ≠ .aborted) : t.status ≠ .aborted := by
  cases h with
  | faults => simp
  | writes | jumps | fallsThrough => exact hs
  | emits x v _ _ _ =>
    rw [emitElem_of_direct direct]
    exact hs

/-- Settles O34: with another Program the state looks alike to the instruction. -/
theorem directModeNeverCompares : Obligations.DirectModeNeverCompares := by
  intro i s other direct
  obtain ⟨t, t', ht, ht', rfl⟩ := exec_related (withProgram_alike (i := i) other direct)
  exact ⟨t, ht, ht', status_ne_aborted_of_direct (exec_cases ht) direct⟩

/-! ### The SEARCH run beside the DIRECT run of the same inputs -/

/-- A state of the DIRECT run and the state of the SEARCH run beside it (R85). -/
inductive Parallel (d : State) : State → Prop where
  /-- Both runs go on, in the same state but for MODE, and Out is a beginning of Program. -/
  | running (running : d.status = .running) (direct : d.mode = .direct) (agrees : d.outWords <+: d.program) :
    Parallel d { d with mode := .search }
  /-- Both have halted; the SEARCH run knows whether Out is Program. -/
  | halted (halted : d.status = .halted) (agrees : d.outWords <+: d.program) :
    Parallel d { d with mode := .search, matched := d.outIsProgram }
  /-- Both have taken the same fault. -/
  | faulted (faulted : d.status = .faulted) : Parallel d { d with mode := .search }
  /-- The SEARCH run has aborted; Out of the DIRECT run is no beginning of Program any more. -/
  | aborted (s : State) (aborted : s.status = .aborted) (diverged : ¬ d.outWords <+: d.program) : Parallel d s

/-- The list's next element is the one that a beginning goes on with. -/
theorem getElem?_of_append_prefix {α : Type} {l m : List α} {w : α} (h : l ++ [w] <+: m) : m[l.length]? = some w := by
  obtain ⟨rest, rfl⟩ := h
  simp

/-- An EMIT that appends: both runs go on with Program's next word, or the SEARCH run aborts. -/
theorem parallel_emitElem {d : State} (running : d.status = .running) (direct : d.mode = .direct)
    (agrees : d.outWords <+: d.program) (e : Elem) :
    Parallel (d.emitElem e) ({ d with mode := .search : State }.emitElem e) := by
  have next : d.program[d.outWords.length]? = d.program.read d.out.length := by
    rw [State.outWords_length]
    rfl
  rw [emitElem_of_direct direct]
  by_cases same : d.program.read d.out.length = some (zext64 e)
  · rw [emitElem_of_agrees (s := { d with mode := .search }) same]
    refine .running running direct ?_
    rw [State.advance_outWords, State.appendOut_outWords]
    exact prefix_append_getElem? agrees (next.trans same)
  · rw [emitElem_of_diverges (s := { d with mode := .search }) rfl same]
    refine .aborted _ rfl fun isPrefix => same ?_
    rw [State.advance_outWords, State.appendOut_outWords] at isPrefix
    exact next.symm.trans (getElem?_of_append_prefix isPrefix)

theorem parallel_alike {d : State} (running : d.status = .running) (direct : d.mode = .direct)
    (agrees : d.outWords <+: d.program) (i : Instr) : Alike Parallel i d { d with mode := .search } where
  reads r _ := by cases r <;> rfl
  faults _ _ := .faulted rfl
  writes _ _ _ := .running running direct agrees
  jumps _ := .running running direct agrees
  advances := .running running direct agrees
  buffer _ _ := ⟨rfl, rfl⟩
  emits _ e _ := parallel_emitElem running direct agrees e

/-- While both runs go on, their next steps lie beside each other again. -/
theorem parallel_step {d : State} (running : d.status = .running) (direct : d.mode = .direct)
    (agrees : d.outWords <+: d.program) : RelatedNext Parallel (step d) (step { d with mode := .search }) := by
  have sameFetch : State.fetch { d with mode := .search } = d.fetch := rfl
  rw [step_running running, step_running (s := { d with mode := .search }) running, State.cycle, State.cycle, sameFetch]
  cases d.fetch with
  | atEnd => exact ⟨_, _, rfl, rfl, .halted rfl agrees⟩
  | incompletePair => exact ⟨_, _, rfl, rfl, .faulted rfl⟩
  | pair op p =>
    cases hd : decode op p with
    | illegalOpcode w =>
      simp only [hd]
      exact ⟨_, _, rfl, rfl, .faulted rfl⟩
    | instr i =>
      simp only [hd]
      exact exec_related (parallel_alike running direct agrees i)

/-- Whatever the SEARCH run reaches, the DIRECT run reaches a state beside it. -/
theorem direct_follows_search {s t d : State} (h : Reaches s t) (beside : Parallel d s) :
    ∃ u, Reaches d u ∧ Parallel u t := by
  induction h generalizing d with
  | refl => exact ⟨d, .refl d, beside⟩
  | head first _ ih =>
    have running := running_of_step first
    cases beside with
    | running _ direct agrees =>
      obtain ⟨w, s', hw, hs', beside'⟩ := parallel_step (d := d) running direct agrees
      obtain rfl := Host.Outcome.next.inj (hs'.symm.trans first)
      obtain ⟨u, hu, besideEnd⟩ := ih beside'
      exact ⟨u, .head hw hu, besideEnd⟩
    | halted status | faulted status | aborted _ status => simp [status] at running

/-- A step that leaves Program's beginnings behind never comes back to them: Out is append-only (R14). -/
theorem step_keeps_divergence {d w : State} (h : step d = .next w) (diverged : ¬ d.outWords <+: d.program) :
    ¬ w.outWords <+: w.program := by
  obtain ⟨hprog, -, -⟩ := step_frame h
  rw [hprog]
  refine fun isPrefix => diverged (List.IsPrefix.trans ?_ isPrefix)
  exact (outIsAppendOnly.2 d w (.head h (.refl w))).map zext64

/-- Whatever the DIRECT run reaches, the SEARCH run reaches a state beside it, where it may have aborted earlier. -/
theorem search_follows_direct {d u s : State} (h : Reaches d u) (beside : Parallel d s) :
    ∃ t, Reaches s t ∧ Parallel u t := by
  induction h generalizing s with
  | refl => exact ⟨s, .refl s, beside⟩
  | head first _ ih =>
    have running := running_of_step first
    cases beside with
    | running _ direct agrees =>
      obtain ⟨w, s', hw, hs', beside'⟩ := parallel_step running direct agrees
      obtain rfl := Host.Outcome.next.inj (hw.symm.trans first)
      obtain ⟨t, ht, besideEnd⟩ := ih beside'
      exact ⟨t, .head hs' ht, besideEnd⟩
    | halted status | faulted status => simp [status] at running
    | aborted _ status diverged => exact ih (.aborted s status (step_keeps_divergence first diverged))

/-- The two runs begin beside each other, in an odd PLEN's fault too (R110). -/
theorem parallel_hostInit {s ss sd : State} {a0 b0 c0 : Word} (search : hostInit a0 b0 c0 .search s = .next ss)
    (direct : hostInit a0 b0 c0 .direct s = .next sd) : Parallel sd ss := by
  obtain ⟨-, ⟨odd, rfl⟩ | ⟨even, rfl⟩⟩ := hostInit_cases search <;>
    obtain ⟨-, ⟨odd', rfl⟩ | ⟨even', rfl⟩⟩ := hostInit_cases direct
  · exact .faulted rfl
  · omega
  · omega
  · exact .running rfl rfl List.nil_prefix

/-! ### What lies beside a state -/

/-- R85 (a), for the SEARCH run's state. -/
theorem Parallel.outWords_prefix {d t : State} (h : Parallel d t) (running : t.status = .running) :
    t.outWords <+: t.program := by
  cases h with
  | running _ _ agrees => exact agrees
  | halted status | faulted status | aborted _ status => simp [status] at running

/-- Beside a halt of the SEARCH run stands a halt of the DIRECT run with the same Out and Program. -/
theorem Parallel.of_search_halted {d t : State} (h : Parallel d t) (halted : t.status = .halted) :
    d.status = .halted ∧ d.outWords <+: d.program ∧ t = { d with mode := .search, matched := d.outIsProgram } := by
  cases h with
  | halted status agrees => exact ⟨status, agrees, rfl⟩
  | running status | faulted status | aborted _ status => simp [status] at halted

/-- R85 (b): Out is a beginning of Program, so that it is Program exactly when it is as long. -/
theorem Parallel.matched_iff {d t : State} (h : Parallel d t) (halted : t.status = .halted) :
    t.matched = true ↔ t.out.length = t.plen := by
  obtain ⟨-, agrees, rfl⟩ := h.of_search_halted halted
  calc d.outIsProgram = true
    _ ↔ d.outWords = d.program := State.outIsProgram_iff d
    _ ↔ d.outWords.length = d.program.length := ⟨congrArg List.length, agrees.eq_of_length⟩
    _ ↔ d.out.length = d.plen := by rw [State.outWords_length, State.plen]

/-- Beside a halt of the DIRECT run with Out = Program the SEARCH run has halted with MATCH = 1. -/
theorem Parallel.of_direct_quine {d t : State} (h : Parallel d t) (halted : d.status = .halted)
    (quine : d.outWords = d.program) : t.status = .halted ∧ t.matched = true := by
  cases h with
  | halted => exact ⟨halted, (State.outIsProgram_iff d).mpr quine⟩
  | running status | faulted status => simp [status] at halted
  | aborted _ _ diverged => exact absurd (quine ▸ List.prefix_rfl) diverged

/-- Settles O49: each run follows the other, and the states where they end say the same. -/
theorem earlyAbortChangesNoAnswer : Obligations.EarlyAbortChangesNoAnswer := by
  intro s ss sd a0 b0 c0 search direct
  have beside := parallel_hostInit search direct
  refine ⟨fun t ht running => ?_, fun t ht halted => ?_, ?_, ?_⟩
  · obtain ⟨u, -, besideEnd⟩ := direct_follows_search ht beside
    exact besideEnd.outWords_prefix running
  · obtain ⟨u, -, besideEnd⟩ := direct_follows_search ht beside
    exact besideEnd.matched_iff halted
  · rintro ⟨t, ⟨ht, -⟩, halted, matched⟩
    obtain ⟨u, hu, besideEnd⟩ := direct_follows_search ht beside
    obtain ⟨uHalted, -, rfl⟩ := besideEnd.of_search_halted halted
    exact ⟨u, ⟨hu, by rw [uHalted]; rfl⟩, uHalted, (State.outIsProgram_iff u).mp matched⟩
  · rintro ⟨u, ⟨hu, -⟩, halted, quine⟩
    obtain ⟨t, ht, besideEnd⟩ := search_follows_direct hu beside
    obtain ⟨tHalted, matched⟩ := besideEnd.of_direct_quine halted quine
    exact ⟨t, ⟨ht, by rw [tHalted]; rfl⟩, tHalted, matched⟩

end Sys2Proof.Proofs
end

section
/-! PROOFS. Exceptions (`60_exceptions.md`): the fault that a step owes is the one it takes (R90 to R97), the buffer without
a bound (R95), terminal statuses (R98), and the five ways in which a run ends (R103). -/

namespace Sys2Proof.Proofs

open Sys2Proof.Machine Sys2Proof.Safety Sys2Proof.Laws

/-- Settles O43: only a RUNNING machine steps. -/
theorem terminalStatesAreFinal : Obligations.TerminalStatesAreFinal :=
  fun _ _ terminal h => reaches_eq_of_terminal terminal h

/-! ### The fault owed is the fault taken -/

/-- From `s`, an outcome answers a debt: the fault owed is taken on `s` and nothing else is done, or none is owed and none
is taken (R96). -/
inductive Answers (s : State) : Option FaultRecord → Host.Outcome State Fault Refusal → Prop where
  | takes (f : FaultRecord) : Answers s (some f) (.next (s.raise f.cause f.info))
  | goesOn (t : State) (notFaulted : t.status ≠ .faulted) : Answers s none (.next t)

/-- The opcodes without a combo operand owe nothing (R92). -/
theorem effectFault_of_literal {op : Word} (literal : op.toNat = 1 ∨ op.toNat = 3 ∨ op.toNat = 4) (s : State) (p : Word) :
    effectFault s op p = none := if_pos literal

/-- An operand word without a value owes INVALID_COMBO, before all else the effect can owe (R97). -/
theorem effectFault_of_reserved {s : State} {op p : Word} (combo : ¬(op.toNat = 1 ∨ op.toNat = 3 ∨ op.toNat = 4))
    (noValue : comboValue s p = none) : effectFault s op p = some ⟨.invalidCombo, p⟩ := by
  rw [effectFault, if_neg combo, noValue]

/-- A divide owes SHIFT_OVERFLOW from the shift limit on (R70). -/
theorem effectFault_of_divide {s : State} {op p k : Word} (divides : op.toNat = 0 ∨ op.toNat = 6 ∨ op.toNat = 7)
    (value : comboValue s p = some k) :
    effectFault s op p = if 64 ≤ k.toNat then some ⟨.shiftOverflow, k⟩ else none := by
  rw [effectFault, if_neg (by omega), value]
  exact if_pos divides

/-- Of the opcodes that take a value and do not divide, EMIT alone owes a fault: OUTPUT_OVERFLOW, where
the buffer is full (R95). -/
theorem effectFault_of_value {s : State} {op p v : Word} (combo : ¬(op.toNat = 1 ∨ op.toNat = 3 ∨ op.toNat = 4))
    (noDivide : ¬(op.toNat = 0 ∨ op.toNat = 6 ∨ op.toNat = 7)) (value : comboValue s p = some v) :
    effectFault s op p =
      if op.toNat = 5 ∧ s.config.outCap = some s.out.length then
        some ⟨.outputOverflow, BitVec.ofNat 64 s.out.length⟩
      else none := by
  rw [effectFault, if_neg combo, value]
  exact if_neg noDivide

theorem divideInto_answers {s : State} {op : Word} (hr : s.status = .running)
    (divides : op.toNat = 0 ∨ op.toNat = 6 ∨ op.toNat = 7) (rd : Reg) (p : Word) :
    Answers s (effectFault s op p) (s.divideInto rd (decodeCombo p)) := by
  cases value : comboValue s p with
  | none =>
    rw [effectFault_of_reserved (by omega) value, divideInto_invalidCombo s rd (comboValue_eq_none.mp value)]
    exact .takes _
  | some k =>
    rw [effectFault_of_divide divides value]
    split_ifs with big
    · rw [divideInto_shiftOverflow rd (combo_of_value value) big]
      exact .takes ⟨_, _⟩
    · rw [divideInto_quotient rd (combo_of_value value) (by omega)]
      exact .goesOn _ (by simp [hr])

theorem mod8_answers {s : State} (hr : s.status = .running) (p : Word) :
    Answers s (effectFault s 2 p) (exec (.mod8 (decodeCombo p)) s) := by
  obtain ⟨-, loads, invalid⟩ := mod8LoadsTheLowThreeBits s p
  cases value : comboValue s p with
  | none =>
    rw [effectFault_of_reserved (by decide) value, invalid (comboValue_eq_none.mp value)]
    exact .takes ⟨.invalidCombo, p⟩
  | some v =>
    rw [effectFault_of_value (by decide) (by decide) value, if_neg (by simp), loads v value]
    exact .goesOn _ (by simp [hr])

theorem emit_answers {s : State} (hr : s.status = .running) (p : Word) :
    Answers s (effectFault s 5 p) (exec (.emit (decodeCombo p)) s) := by
  cases value : comboValue s p with
  | none =>
    rw [effectFault_of_reserved (by decide) value, exec_emit_of_reserved s (comboValue_eq_none.mp value)]
    exact .takes ⟨.invalidCombo, p⟩
  | some v =>
    rw [effectFault_of_value (by decide) (by decide) value]
    split_ifs with full
    · rw [exec_emit_of_full (combo_of_value value) full.2]
      exact .takes ⟨_, _⟩
    · rw [exec_emit_of_room (combo_of_value value) fun cap => full ⟨rfl, cap⟩]
      refine .goesOn _ ?_
      obtain ⟨aborted, -⟩ | ⟨same, -⟩ := emitElem_status_cases s (low3 v)
      · simp [aborted]
      · simp [same, hr]

/-- Every instruction takes the fault that its pair owes (R92, R97); the cases stand in the order of the opcodes. -/
theorem exec_answers {s : State} {op p : Word} {i : Instr} (hr : s.status = .running) (dec : decode op p = .instr i) :
    Answers s (effectFault s op p) (exec i s) := by
  unfold decode at dec
  split_ifs at dec
  all_goals
    cases dec
    subst op
  · exact divideInto_answers hr (by decide) .a p
  · rw [effectFault_of_literal (by decide)]
    exact .goesOn _ (by simp [hr])
  · exact mod8_answers hr p
  · rw [effectFault_of_literal (by decide)]
    refine .goesOn _ ?_
    split_ifs <;> simp [hr]
  · rw [effectFault_of_literal (by decide)]
    exact .goesOn _ (by simp [hr])
  · exact emit_answers hr p
  · exact divideInto_answers hr (by decide) .b p
  · exact divideInto_answers hr (by decide) .c p

/-! ### The order of the faults of a step -/

/-- The halt pre-empts every fault (R97). -/
theorem faultDue_of_atEnd {s : State} (atEnd : s.plen ≤ s.pc.toNat) : faultDue s = none := if_pos atEnd

/-- Between the halt and the decoder stands INCOMPLETE_PAIR (R97). -/
theorem faultDue_of_last {s : State} (last : s.pc.toNat + 1 = s.plen) :
    faultDue s = some ⟨.incompletePair, s.pc⟩ := by
  have noOperand : s.program.read (s.pc.toNat + 1) = none := Memory.read_eq_none.mpr last.ge
  rw [faultDue, if_neg (by omega), noOperand]
  cases s.program.read s.pc.toNat <;> rfl

/-- ILLEGAL_OPCODE stands before the faults of the effect (R97). -/
theorem faultDue_of_pair {s : State} {op p : Word} (opAt : s.program.read s.pc.toNat = some op)
    (pAt : s.program.read (s.pc.toNat + 1) = some p) :
    faultDue s = if 8 ≤ op.toNat then some ⟨.illegalOpcode, op⟩ else effectFault s op p := by
  have below : s.pc.toNat + 1 < s.plen := Memory.lt_of_read pAt
  rw [faultDue, if_neg (by omega), opAt, pAt]

/-- A step takes the fault that its state owes (R90, R97). -/
theorem step_answers {s : State} (hr : s.status = .running) : Answers s (faultDue s) (step s) := by
  obtain ⟨t, ht⟩ := runningMachineAlwaysSteps s hr
  obtain ⟨-, hc⟩ := step_cases ht
  rw [ht]
  cases hc with
  | halts atEnd =>
    rw [faultDue_of_atEnd atEnd]
    exact .goesOn _ (by simp)
  | incomplete last =>
    rw [faultDue_of_last last]
    exact .takes ⟨_, _⟩
  | illegal op p opAt pAt bad =>
    have high : 8 ≤ op.toNat := by
      by_contra low
      obtain ⟨i, dec⟩ := decode_of_lt (Nat.not_le.mp low) p
      simp [bad] at dec
    rw [faultDue_of_pair opAt pAt, if_pos high]
    exact .takes ⟨_, _⟩
  | runs op p i t opAt pAt dec ex _ =>
    have low : ¬ 8 ≤ op.toNat := fun high => by simp [decode_of_ge high] at dec
    rw [faultDue_of_pair opAt pAt, if_neg low, ← ex]
    exact exec_answers hr dec

/-- Settles O18: the two ways in which a step answers what its state owes. -/
theorem stepTakesTheFirstFaultDue : Obligations.StepTakesTheFirstFaultDue := by
  intro s hr
  have answers := step_answers hr
  generalize faultDue s = due, step s = outcome at answers
  cases answers with
  | takes => exact ⟨fun f owed => by cases owed; rfl, nofun⟩
  | goesOn t notFaulted => exact ⟨nofun, fun _ => ⟨t, rfl, notFaulted⟩⟩

/-! ### An unbounded buffer -/

/-- A step that does not end FAULTED leaves the fault record (R18). -/
theorem step_record_of_not_faulted {s t : State} (h : step s = .next t) (ht : t.status ≠ .faulted) :
    t.cause = s.cause ∧ t.info = s.info := by
  obtain ⟨-, hc⟩ := step_cases h
  cases hc with
  | halts => exact ⟨rfl, rfl⟩
  | incomplete | illegal => exact absurd rfl ht
  | runs op p i t _ _ _ _ he => exact record_of_not_faulted he ht

/-- CAUSE changes in a step only to that of the fault owed. -/
theorem step_cause {s t : State} (h : step s = .next t) :
    t.cause = s.cause ∨ ∃ f, faultDue s = some f ∧ t.cause = f.cause := by
  have answers := step_answers (running_of_step h)
  rw [h] at answers
  generalize due : faultDue s = owed at answers
  cases answers with
  | takes f => exact .inr ⟨f, rfl, rfl⟩
  | goesOn _ notFaulted => exact .inl (step_record_of_not_faulted h notFaulted).1

/-- Of the faults of an effect OUTPUT_OVERFLOW is owed by a full finite buffer alone (R95). -/
theorem full_of_effectFault_overflow {s : State} {op p : Word} {f : FaultRecord} (due : effectFault s op p = some f)
    (overflow : f.cause = .outputOverflow) : s.config.outCap = some s.out.length := by
  by_cases literal : op.toNat = 1 ∨ op.toNat = 3 ∨ op.toNat = 4
  · simp [effectFault_of_literal literal] at due
  cases value : comboValue s p with
  | none =>
    rw [effectFault_of_reserved literal value] at due
    cases due
    cases overflow
  | some v =>
    by_cases divides : op.toNat = 0 ∨ op.toNat = 6 ∨ op.toNat = 7
    · rw [effectFault_of_divide divides value] at due
      split_ifs at due
      cases due
      cases overflow
    · rw [effectFault_of_value literal divides value] at due
      split_ifs at due with full
      exact full.2

theorem full_of_faultDue_overflow {s : State} {f : FaultRecord} (due : faultDue s = some f)
    (overflow : f.cause = .outputOverflow) : s.config.outCap = some s.out.length := by
  by_cases atEnd : s.plen ≤ s.pc.toNat
  · simp [faultDue_of_atEnd atEnd] at due
  by_cases last : s.pc.toNat + 1 = s.plen
  · rw [faultDue_of_last last] at due
    cases due
    cases overflow
  · obtain ⟨op, p, opAt, pAt, -⟩ := exists_fetch_pair (s := s) (by omega)
    rw [faultDue_of_pair opAt pAt] at due
    split_ifs at due
    · cases due
      cases overflow
    · exact full_of_effectFault_overflow due overflow

/-- Settles O35: all along the run the capacities are those of `Init`, and no fault owed is OUTPUT_OVERFLOW. -/
theorem unboundedBufferNeverOverflows : Obligations.UnboundedBufferNeverOverflows := by
  intro s0 s t a0 b0 c0 m unbounded init h
  refine (reaches_keeps (P := fun u => u.config.outCap = none ∧ u.cause ≠ .outputOverflow)
    (fun u w ⟨cap, cause⟩ hw => ⟨?_, ?_⟩) h ?_).2
  · obtain ⟨-, -, config⟩ := step_frame hw
    rwa [config]
  · obtain same | ⟨f, due, taken⟩ := step_cause hw
    · rwa [same]
    · rw [taken]
      intro overflow
      simp [full_of_faultDue_overflow due overflow] at cap
  · obtain ⟨-, ⟨-, rfl⟩ | ⟨-, rfl⟩⟩ := hostInit_cases init
    · exact ⟨unbounded, by simp⟩
    · exact ⟨unbounded, by simp [State.fresh]⟩

/-! ### How a run ends -/

/-- A run that goes on: no result and no record yet, and in SEARCH Out is a beginning of Program (R18, R19, R22). -/
structure GoesOn (t : State) : Prop where
  running : t.status = .running
  noMatch : t.matched = false
  noCause : t.cause = .none
  agrees : t.mode = .search → t.outWords <+: t.program

/-- A run that is over, by the rows of R103. -/
inductive Over (t : State) : Prop where
  | direct (status : t.status = .halted) (noMatch : t.matched = false) (mode : t.mode = .direct)
  | quine (status : t.status = .halted) (isMatch : t.matched = true) (mode : t.mode = .search)
    (equal : t.outWords = t.program)
  | short (status : t.status = .halted) (noMatch : t.matched = false) (mode : t.mode = .search)
    (shorter : t.out.length < t.plen) (agrees : t.outWords <+: t.program)
  | aborted (status : t.status = .aborted) (noMatch : t.matched = false) (mode : t.mode = .search)
    (noCause : t.cause = .none) (diverged : ¬ t.outWords <+: t.program)
  | faulted (status : t.status = .faulted) (noMatch : t.matched = false) (cause : t.cause ≠ .none)

theorem Over.not_running {t : State} (h : Over t) : t.status ≠ .running := by
  cases h with
  | direct status | quine status | short status | aborted status | faulted status => simp [status]

theorem GoesOn.raise {s : State} (hs : GoesOn s) {k : Cause} (named : k ≠ .none) (v : Word) : Over (s.raise k v) :=
  .faulted rfl hs.noMatch named

/-- The run of a quine halts with Out = Program; in SEARCH every other halt comes too early (R19, R103). -/
theorem GoesOn.halt {s : State} (hs : GoesOn s) : Over s.halt := by
  cases mode : s.mode with
  | direct => exact .direct rfl (by simp [mode]) mode
  | search =>
    have agrees : s.outWords <+: s.program := hs.agrees mode
    by_cases equal : s.outWords = s.program
    · exact .quine rfl (by simp [mode, equal]) mode equal
    · have shorter : s.out.length < s.plen := by
        rw [← State.outWords_length]
        exact lt_of_le_of_ne agrees.length_le fun same => equal (agrees.eq_of_length same)
      exact .short rfl (by rw [State.halt_matched]; simp [mode, State.outIsProgram, equal]) mode shorter agrees

/-- An EMIT that appends goes on with Program's next word, or with any word in DIRECT; else it aborts (R84, R86). -/
theorem GoesOn.emitElem {s : State} (hs : GoesOn s) (e : Elem) : GoesOn (s.emitElem e) ∨ Over (s.emitElem e) := by
  have next : s.program[s.outWords.length]? = s.program.read s.out.length := by
    rw [State.outWords_length]
    rfl
  cases mode : s.mode with
  | direct =>
    rw [emitElem_of_direct mode]
    exact .inl ⟨hs.running, hs.noMatch, hs.noCause, fun search => by simp [mode] at search⟩
  | search =>
    by_cases same : s.program.read s.out.length = some (zext64 e)
    · rw [emitElem_of_agrees same]
      refine .inl ⟨hs.running, hs.noMatch, hs.noCause, fun _ => ?_⟩
      rw [State.advance_outWords, State.appendOut_outWords]
      exact prefix_append_getElem? (hs.agrees mode) (next.trans same)
    · rw [emitElem_of_diverges mode same]
      refine .inr (.aborted rfl hs.noMatch mode hs.noCause fun isPrefix => same ?_)
      rw [State.abort_outWords, State.advance_outWords, State.appendOut_outWords] at isPrefix
      exact next.symm.trans (getElem?_of_append_prefix isPrefix)

theorem GoesOn.effect {i : Instr} {s t : State} (hs : GoesOn s) (h : Effect i s t) : GoesOn t ∨ Over t := by
  cases h with
  | faults k v named => exact .inr (hs.raise named v)
  | writes | jumps | fallsThrough => exact .inl ⟨hs.running, hs.noMatch, hs.noCause, hs.agrees⟩
  | emits => exact hs.emitElem _

theorem GoesOn.step {s t : State} (hs : GoesOn s) (h : step s = .next t) : GoesOn t ∨ Over t := by
  obtain ⟨-, hc⟩ := step_cases h
  cases hc with
  | halts => exact .inr hs.halt
  | incomplete | illegal => exact .inr (hs.raise (by decide) _)
  | runs op p i t _ _ _ _ he => exact hs.effect he

/-- `Init` begins a run, or ends it at once with ODD_LENGTH (R91, R110). -/
theorem goesOn_or_over_of_hostInit {a0 b0 c0 : Word} {m : Mode} {s t : State} (h : hostInit a0 b0 c0 m s = .next t) :
    GoesOn t ∨ Over t := by
  obtain ⟨-, ⟨-, rfl⟩ | ⟨-, rfl⟩⟩ := hostInit_cases h
  · exact .inr (.faulted rfl rfl (by simp))
  · exact .inl ⟨rfl, rfl, rfl, fun _ => List.nil_prefix⟩

/-- Every state of a run is one where it goes on or one where it is over. -/
theorem goesOn_or_over_of_reaches {s t : State} (h : Reaches s t) (hs : GoesOn s ∨ Over s) : GoesOn t ∨ Over t := by
  refine reaches_keeps (P := fun u => GoesOn u ∨ Over u) (fun u w hu hw => ?_) h hs
  obtain going | ended := hu
  · exact going.step hw
  · exact absurd (running_of_step hw) ended.not_running

/-- Settles O42: at its final state a run does not go on, and is over by one of the five rows. -/
theorem runEndsInOneOfFiveWays : Obligations.RunEndsInOneOfFiveWays := by
  rintro s0 s t a0 b0 c0 m init ⟨path, terminal⟩
  obtain going | ended := goesOn_or_over_of_reaches path (goesOn_or_over_of_hostInit init)
  · rw [going.running] at terminal
    cases terminal
  · cases ended with
    | direct status noMatch mode => exact .inl ⟨status, noMatch, mode⟩
    | quine status isMatch mode equal => exact .inr (.inl ⟨status, isMatch, mode, equal⟩)
    | short status noMatch mode shorter agrees =>
      exact .inr (.inr (.inl ⟨status, noMatch, mode, shorter, agrees⟩))
    | aborted status noMatch mode noCause diverged =>
      exact .inr (.inr (.inr (.inl ⟨status, noMatch, mode, noCause, diverged⟩)))
    | faulted status noMatch cause => exact .inr (.inr (.inr (.inr ⟨status, noMatch, cause⟩)))

end Sys2Proof.Proofs
end

section
/-! PROOFS. Reset and the host (`70_reset_and_hazards.md`): what `Init`, a hardware reset and a read of the results do, what
direct execution returns (R116), and what the answers of the baseline search say about its candidates (R118 to R120). -/

namespace Sys2Proof.Proofs

open Sys2Proof.Machine Sys2Proof.Safety Sys2Proof.Laws

/-! ### `Init` -/

theorem hostInit_of_even {s : State} (idle : s.status ≠ .running) (even : s.plen % 2 = 0) (a0 b0 c0 : Word) (m : Mode) :
    hostInit a0 b0 c0 m s = .next (s.fresh a0 b0 c0 m) := by
  rw [hostInit, if_neg idle, if_neg (by omega)]

theorem hostInit_of_odd {s : State} (idle : s.status ≠ .running) (odd : s.plen % 2 = 1) (a0 b0 c0 : Word) (m : Mode) :
    hostInit a0 b0 c0 m s = .next ((s.fresh a0 b0 c0 m).raise .oddLength (BitVec.ofNat 64 s.plen)) := by
  rw [hostInit, if_neg idle, if_pos odd]

/-- `Init` is answered whenever no run is going on. -/
theorem exists_hostInit {s : State} (idle : s.status ≠ .running) (a0 b0 c0 : Word) (m : Mode) :
    ∃ t, hostInit a0 b0 c0 m s = .next t := by
  obtain even | odd := Nat.mod_two_eq_zero_or_one s.plen
  · exact ⟨_, hostInit_of_even idle even a0 b0 c0 m⟩
  · exact ⟨_, hostInit_of_odd idle odd a0 b0 c0 m⟩

/-- `Init` leaves Program and the parameters, and sets MODE (R110). -/
theorem hostInit_frame {a0 b0 c0 : Word} {m : Mode} {s t : State} (h : hostInit a0 b0 c0 m s = .next t) :
    t.program = s.program ∧ t.mode = m ∧ t.config = s.config := by
  obtain ⟨-, ⟨-, rfl⟩ | ⟨-, rfl⟩⟩ := hostInit_cases h <;> exact ⟨rfl, rfl, rfl⟩

/-- All that `Init` keeps of a machine between runs is Program and the parameters (R110). -/
theorem hostInit_congr {s s' : State} (idle : s.status ≠ .running) (idle' : s'.status ≠ .running)
    (program : s'.program = s.program) (config : s'.config = s.config) (a0 b0 c0 : Word) (m : Mode) :
    hostInit a0 b0 c0 m s' = hostInit a0 b0 c0 m s := by
  have plen : s'.plen = s.plen := congrArg List.length program
  have fresh : s'.fresh a0 b0 c0 m = s.fresh a0 b0 c0 m := by rw [State.fresh, State.fresh, program, config]
  rw [hostInit, hostInit, if_neg idle, if_neg idle', plen, fresh]

/-- Settles O45: the two parities of PLEN, and what `Init` keeps. -/
theorem initStartsAFreshRun : Obligations.InitStartsAFreshRun := by
  intro s a0 b0 c0 m
  refine ⟨fun hr t h => ?_, fun idle even => hostInit_of_even idle even a0 b0 c0 m,
    fun idle odd => hostInit_of_odd idle odd a0 b0 c0 m,
    fun s' idle idle' program config => hostInit_congr idle idle' program config a0 b0 c0 m⟩
  obtain ⟨idle, -⟩ := hostInit_cases h
  exact idle hr

/-- Settles O52: between the reset and `Init` the load replaces the Program alone. -/
theorem hardwareResetLeavesIdle : Obligations.HardwareResetLeavesIdle := by
  intro s a0 b0 c0 m ws
  have idle : (hardwareReset s).status ≠ .running := nofun
  refine ⟨rfl, rfl, rfl, rfl, stepIsStuckUnlessRunning _ idle, fun fits room even => ?_⟩
  exact ⟨_, _, hostLoad_eq_next_iff.mpr ⟨idle, ⟨fits, room⟩, rfl⟩,
    hostInit_of_even (s := { hardwareReset s with program := ws }) idle even a0 b0 c0 m, rfl, rfl, rfl⟩

/-! ### Reading the results -/

theorem status_terminal_iff {st : Status} : st.terminal = true ↔ st = .halted ∨ st = .aborted ∨ st = .faulted := by
  cases st <;> decide

/-- What a read answers, and when (R113). -/
theorem hostRead_eq_some_iff {s : State} {r : RunResult} : hostRead s = some r ↔
    s.status.terminal = true ∧ r = ⟨s.status, s.matched, s.cause, s.info, s.out, s.a, s.b, s.c, s.pc⟩ := by
  unfold hostRead
  split_ifs with terminal <;> simp [terminal, eq_comm]

/-- Settles O47: the terminal statuses are the three named, and a read copies the state's fields. -/
theorem resultsAreReadableAtTheEnd : Obligations.ResultsAreReadableAtTheEnd := by
  intro s
  simp only [hostRead_eq_some_iff, ← status_terminal_iff]
  refine ⟨⟨fun ⟨_, terminal, _⟩ => terminal, fun terminal => ⟨_, terminal, rfl⟩⟩, ?_⟩
  rintro r ⟨-, rfl⟩
  exact ⟨rfl, rfl, rfl, rfl, rfl, rfl, rfl, rfl, rfl⟩

/-! ### Direct execution -/

/-- A run keeps Program, MODE and the parameters from its `Init` to its end. -/
theorem run_frame {a0 b0 c0 : Word} {m : Mode} {s t u : State} (init : hostInit a0 b0 c0 m s = .next t)
    (ends : EndsIn t u) : u.program = s.program ∧ u.mode = m ∧ u.config = s.config := by
  obtain ⟨program, mode, config⟩ := hostInit_frame init
  obtain ⟨program', mode', config'⟩ := programAndModeAreConstantOverARun t u ends.1
  exact ⟨program'.trans program, mode'.trans mode, config'.trans config⟩

/-- Of the five ways in which a run ends two are left in DIRECT, both with MATCH = 0 (R86, R103). -/
theorem direct_run_ends {a0 b0 c0 : Word} {s t u : State} (init : hostInit a0 b0 c0 .direct s = .next t)
    (ends : EndsIn t u) : (u.status = .halted ∨ u.status = .faulted) ∧ u.matched = false := by
  obtain ⟨-, direct, -⟩ := run_frame init ends
  obtain ⟨status, noMatch, -⟩ | ⟨-, -, search, -⟩ | ⟨-, -, search, -⟩ | ⟨-, -, search, -⟩ | ⟨status, noMatch, -⟩ :=
    runEndsInOneOfFiveWays s t u a0 b0 c0 .direct init ends
  · exact ⟨.inl status, noMatch⟩
  · simp [direct] at search
  · simp [direct] at search
  · simp [direct] at search
  · exact ⟨.inr status, noMatch⟩

/-- Settles O48: the results are read where the run that `Init` began ends. -/
theorem directExecutionReturnsTheFinalState : Obligations.DirectExecutionReturnsTheFinalState := by
  intro s a0 b0 c0 fuel r h
  obtain ⟨u, run, read⟩ := Option.bind_eq_some_iff.mp h
  obtain ⟨t, init, ends⟩ := endsIn_of_runFrom run
  obtain ⟨-, rfl⟩ := hostRead_eq_some_iff.mp read
  exact ⟨⟨t, u, init, ends, read⟩, direct_run_ends init ends⟩

/-! ### A candidate of the search -/

/-- The SEARCH run of the seed `x`, begun on `s`, is over at `u` (R118). -/
def CandidateEnds (s : State) (b0 c0 : Word) (x : Nat) (u : State) : Prop :=
  ∃ t, hostInit (BitVec.ofNat 64 x) b0 c0 .search s = .next t ∧ EndsIn t u

/-- The candidate `x` ends without a fault and without success, so that the search goes on to the next seed. -/
def CandidateFails (s : State) (b0 c0 : Word) (x : Nat) : Prop :=
  ∃ u, CandidateEnds s b0 c0 x u ∧ u.status ≠ .faulted ∧ u.succeeded = false

theorem succeeded_iff {s : State} : s.succeeded = true ↔ s.status = .halted ∧ s.matched = true := by
  simp [State.succeeded]

/-- A candidate succeeds exactly when its seed has the quine property: the SEARCH run answers for the DIRECT run (R85, R120). -/
theorem CandidateEnds.directQuine_iff {s u : State} {b0 c0 : Word} {x : Nat} (h : CandidateEnds s b0 c0 x u) :
    DirectQuine s b0 c0 x ↔ u.succeeded = true := by
  obtain ⟨ss, search, ends⟩ := h
  obtain ⟨idle, -⟩ := hostInit_cases search
  obtain ⟨sd, direct⟩ := exists_hostInit idle (BitVec.ofNat 64 x) b0 c0 .direct
  obtain ⟨-, -, sameAnswer⟩ := earlyAbortChangesNoAnswer s ss sd (BitVec.ofNat 64 x) b0 c0 search direct
  rw [succeeded_iff]
  constructor
  · rintro ⟨t, w, init, endsDirect, halted, quine⟩
    obtain ⟨program, -⟩ := run_frame init endsDirect
    obtain rfl := Host.Outcome.next.inj (init.symm.trans direct)
    obtain ⟨u', ends', success⟩ := sameAnswer.mpr ⟨w, endsDirect, halted, quine.trans program.symm⟩
    obtain rfl := aRunHasOneFinalState ss u u' ends ends'
    exact success
  · intro success
    obtain ⟨w, endsDirect, halted, quine⟩ := sameAnswer.mp ⟨u, ends, success⟩
    obtain ⟨program, -⟩ := run_frame direct endsDirect
    exact ⟨sd, w, direct, endsDirect, halted, quine.trans program⟩

theorem CandidateFails.not_directQuine {s : State} {b0 c0 : Word} {x : Nat} (h : CandidateFails s b0 c0 x) :
    ¬ DirectQuine s b0 c0 x := by
  obtain ⟨u, ends, -, failed⟩ := h
  simp [ends.directQuine_iff, failed]

/-- On the state that a candidate leaves, `Init` begins the runs that it would begin on the state before it (R110, R120). -/
theorem CandidateEnds.same_runs {s u : State} {b0 c0 : Word} {x : Nat} (h : CandidateEnds s b0 c0 x u)
    (a0 b0' c0' : Word) (m : Mode) : hostInit a0 b0' c0' m u = hostInit a0 b0' c0' m s := by
  obtain ⟨t, init, ends⟩ := h
  obtain ⟨idle, -⟩ := hostInit_cases init
  obtain ⟨program, -, config⟩ := run_frame init ends
  have ended : u.status ≠ .running := fun running => by simp [EndsIn, running, Status.terminal] at ends
  exact hostInit_congr idle ended program config a0 b0' c0' m

/-! ### The search's answer -/

/-- What an answer of the driver's loop says of the candidates `lo` to `lo + count - 1`, each begun on `s`. -/
inductive Verdict (s : State) (b0 c0 : Word) (lo count : Nat) : SearchResult → Prop where
  | found (x : Nat) (u : State) (ge : lo ≤ x) (lt : x < lo + count) (ends : CandidateEnds s b0 c0 x u)
    (success : u.succeeded = true) (earlier : ∀ y, lo ≤ y → y < x → CandidateFails s b0 c0 y) :
    Verdict s b0 c0 lo count (.found x)
  | fatal (x : Nat) (u : State) (ge : lo ≤ x) (lt : x < lo + count) (ends : CandidateEnds s b0 c0 x u)
    (faulted : u.status = .faulted) (earlier : ∀ y, lo ≤ y → y < x → CandidateFails s b0 c0 y) :
    Verdict s b0 c0 lo count (.fatal u.cause u.info)
  | notFound (all : ∀ y, lo ≤ y → y < lo + count → CandidateFails s b0 c0 y) : Verdict s b0 c0 lo count .notFound
  | unresolved (x : Nat) : Verdict s b0 c0 lo count (.unresolved x)

/-- What holds of a first candidate and of the later ones holds of all. -/
theorem forall_ge_of_first {P : Nat → Prop} {lo n : Nat} (first : P lo) (later : ∀ y, lo + 1 ≤ y → y < n → P y) :
    ∀ y, lo ≤ y → y < n → P y := by
  intro y ge lt
  obtain rfl | gt := Nat.eq_or_lt_of_le ge
  · exact first
  · exact later y gt lt

/-- A failed candidate before the range leaves the verdict. -/
theorem Verdict.cons {s : State} {b0 c0 : Word} {lo count : Nat} {r : SearchResult} (first : CandidateFails s b0 c0 lo)
    (h : Verdict s b0 c0 (lo + 1) count r) : Verdict s b0 c0 lo (count + 1) r := by
  cases h with
  | found x u ge lt ends success earlier =>
    exact .found x u (by omega) (by omega) ends success (forall_ge_of_first first earlier)
  | fatal x u ge lt ends faulted earlier =>
    exact .fatal x u (by omega) (by omega) ends faulted (forall_ge_of_first first earlier)
  | notFound all => exact .notFound (forall_ge_of_first first fun y ge lt => all y ge (by omega))
  | unresolved x => exact .unresolved x

/-- The loop decides its candidates, on whatever state `s'` it stands that begins the runs of `s`. -/
theorem searchFrom_verdict {s s' : State} (fuel : Nat) (b0 c0 : Word) (lo count : Nat)
    (same : ∀ a0 b0 c0 m, hostInit a0 b0 c0 m s' = hostInit a0 b0 c0 m s) :
    Verdict s b0 c0 lo count (searchFrom fuel b0 c0 lo s' count) := by
  induction count generalizing lo s' with
  | zero => exact .notFound fun y ge lt => by omega
  | succ count ih =>
    rw [searchFrom]
    cases run : runFrom fuel (BitVec.ofNat 64 lo) b0 c0 .search s' with
    | none => exact .unresolved lo
    | some u =>
      obtain ⟨t, init, endsIn⟩ := endsIn_of_runFrom run
      have ends : CandidateEnds s b0 c0 lo u := ⟨t, (same ..).symm.trans init, endsIn⟩
      have noneEarlier : ∀ y, lo ≤ y → y < lo → CandidateFails s b0 c0 y := fun y ge lt => by omega
      dsimp only
      split_ifs with success faulted
      · exact .found lo u le_rfl (by omega) ends success noneEarlier
      · exact .fatal lo u le_rfl (by omega) ends faulted noneEarlier
      · have fails : CandidateFails s b0 c0 lo := ⟨u, ends, faulted, Bool.eq_false_iff.mpr success⟩
        exact (ih (lo + 1) ends.same_runs).cons fails

/-- How many seeds the search tries at the most: those from `lo` to the bound of R118. -/
def seedCount (lo : Nat) (hi : Option Nat) : Nat := min (hi.getD (2 ^ 64 - 1)) (2 ^ 64 - 1) + 1 - lo

/-- The loop's seeds are those of the search's range (R118). -/
theorem lt_add_seedCount_iff {lo x : Nat} (hi : Option Nat) (ge : lo ≤ x) :
    x < lo + seedCount lo hi ↔ x < 2 ^ 64 ∧ ∀ h, hi = some h → x ≤ h := by
  unfold seedCount
  cases hi with
  | none => simp; omega
  | some h => simp; omega

theorem search_verdict (fuel : Nat) (b0 c0 : Word) (lo : Nat) (hi : Option Nat) (s : State) :
    Verdict s b0 c0 lo (seedCount lo hi) (search fuel b0 c0 lo hi s) :=
  searchFrom_verdict fuel b0 c0 lo _ fun _ _ _ _ => rfl

/-- Settles O50: the candidate found succeeds and those before it fail, as the quine property of their seeds says. -/
theorem searchFindsTheLeastQuineSeed : Obligations.SearchFindsTheLeastQuineSeed := by
  intro s b0 c0 fuel lo hi
  have verdict := search_verdict fuel b0 c0 lo hi s
  constructor
  · intro seed answer
    rw [answer] at verdict
    cases verdict with
    | found _ u ge lt ends success earlier =>
      obtain ⟨fits, below⟩ := (lt_add_seedCount_iff hi ge).mp lt
      exact ⟨ge, fits, below, ends.directQuine_iff.mpr success, fun x ge' lt' => (earlier x ge' lt').not_directQuine⟩
  · intro answer x ge fits below
    rw [answer] at verdict
    cases verdict with
    | notFound all => exact (all x ge ((lt_add_seedCount_iff hi ge).mpr ⟨fits, below⟩)).not_directQuine

/-- Settles O51: the candidate at which the loop stopped, and those before it. -/
theorem searchStopsAtTheFirstFault : Obligations.SearchStopsAtTheFirstFault := by
  intro s b0 c0 fuel lo hi cause info answer
  have verdict := search_verdict fuel b0 c0 lo hi s
  rw [answer] at verdict
  cases verdict with
  | fatal x u ge lt ends faulted earlier =>
    obtain ⟨t, init, endsIn⟩ := ends
    obtain ⟨fits, below⟩ := (lt_add_seedCount_iff hi ge).mp lt
    refine ⟨x, ge, fits, below, ⟨t, u, init, endsIn, faulted, rfl, rfl⟩, fun y ge' lt' => ?_⟩
    obtain ⟨w, ⟨v, init', endsIn'⟩, notFaulted, failed⟩ := earlier y ge' lt'
    exact ⟨v, w, init', endsIn', notFaulted, failed⟩

end Sys2Proof.Proofs
end
